-- ==== Sys2Proof/Word.lean ====
section
/-! DEFINITION. The word types of HelloStm32 CORE: the byte (8 bits in every space, R50) and the 32-bit
accumulator of the reference hardware CRC (R144, R152). -/

namespace Sys2Proof

/-- A byte is 8 bits in every space (R50). -/
abbrev Byte := BitVec 8

/-- The accumulator of the reference hardware CRC unit (R144). -/
abbrev Acc32 := BitVec 32

end Sys2Proof
end

