-- ==== Sys2Proof/Machine/Arith.lean ====
section
/-! DEFINITION. The arithmetic CORE's rules are written in: `bitlen`, `mask`, `ceil`, `clamp` of 00_scope.md
section 5, bit strings least significant bit first (R53), little-endian words (R56), and the configuration
check of R105 over plain operands. Everything is on unbounded naturals (R110). -/

namespace Sys2Proof.Machine

/-- `bitlen(x)`: 0 for 0, else one more than the position of the highest set bit (00_scope.md section 5, R102). -/
def bitlen (x : Nat) : Nat := if x = 0 then 0 else Nat.log2 x + 1

/-- `mask(w) = 2^w − 1` (R103). -/
def maskOf (w : Nat) : Nat := 2 ^ w - 1

/-- `ceil(bits / 8)` (R104). -/
def bytesFor (bits : Nat) : Nat := (bits + 7) / 8

/-- `clamp(v, lo, hi)`, the comparison order of R107. -/
def clampTo (lo hi v : Nat) : Nat := if v < lo then lo else if hi < v then hi else v

/-- The natural number whose bit k is entry k of the list (bit 0 first, 00_scope.md section 5). -/
def natOfBits : List Bool → Nat
  | [] => 0
  | b :: bs => b.toNat + 2 * natOfBits bs

/-- The byte whose bit m is `f m`. -/
def byteOfBits (f : Nat → Bool) : Byte := BitVec.ofNat 8 (natOfBits ((List.range 8).map f))

/-- `BIT(B, g) = B[g div 8][g mod 8]` (00_scope.md section 5, R53, R131). -/
def bufBit (buf : List Byte) (g : Nat) : Bool := (buf.getD (g / 8) 0).getLsbD (g % 8)

/-- Bytes read as one little-endian natural number, byte 0 lowest (R56, R82). -/
def natOfBytes : List Byte → Nat
  | [] => 0
  | b :: bs => b.toNat + 256 * natOfBytes bs

/-- The five cause bits of VALIDATE's `cfgerr` (R105): bit 0 CE_SIGNED, 1 CE_ORDER, 2 CE_COUNT, 3 CE_WIDTH,
4 CE_CAPACITY. All that hold are reported. `cap` is RANGE_CAP_WIDTH. -/
def cfgErr (elemSigned : Bool) (elemWidth n minimal maximum : Nat) (hashSel : BitVec 2) (cap : Nat) :
    BitVec 5 :=
  BitVec.ofNat 5 (natOfBits [
    elemSigned,
    decide (maximum < minimal),
    decide (n = 0),
    decide (minimal ≤ maximum) && decide (elemWidth < bitlen (maximum - minimal)),
    decide (cap < elemWidth) || decide (hashSel = 3)])

end Sys2Proof.Machine
end

