-- ==== Sys2Proof/Syntax.lean ====
section
/-! DEFINITION. The syntax: one constructor of `Instr` per row of spec/opcode_table.json (R92), the operand
ports an operation reads (R24), and the lines of a host script (R96), which are the steps of the total order.

An operation code carries no operand (R92: "The code selects the operation and carries nothing else"), so no
constructor of `Instr` has a field; the operands travel on `Ports`. -/

namespace Sys2Proof

/-- The eighteen operations of R92: thirteen host commands, then five agent events. -/
inductive Instr where
  | validate     -- VALIDATE, R105
  | normalize    -- NORMALIZE, R107
  | denormalize  -- DENORMALIZE, R108
  | pack         -- PACK, R120
  | unpack       -- UNPACK, R124
  | calculate    -- CALC, R141
  | calcHwcrc    -- CALC.HWCRC, R143
  | calcCrc8     -- CALC.CRC8, R145
  | calcSum      -- CALC.SUM, R148
  | serialize    -- SERIALIZE, R160
  | deserialize  -- DESERIALIZE, R165
  | read         -- READ, R189
  | available    -- AVAILABLE, R190
  | engByte      -- ENG_BYTE, R195
  | engError     -- ENG_ERROR, R197
  | handler      -- HANDLER, R198
  | sinkWrite    -- SINK_WRITE, R163
  | reset        -- RESET, R240
  deriving DecidableEq, Repr, Inhabited

/-- VALIDATE's operand, a candidate configuration `(ELEM_SIGNED, ELEM_WIDTH, N, MINIMAL, MAXIMUM, HASH_SEL)`
(R105, R21). -/
structure Candidate where
  elemSigned : Bool
  elemWidth : Nat
  n : Nat
  minimal : Nat
  maximum : Nat
  hashSel : BitVec 2
  deriving DecidableEq, Repr, Inhabited

/-- The operand ports of R24, and the two inputs an agent event carries (R92: the byte of ENG_BYTE, the count
of SINK_WRITE). Values of a port `ELEM_WIDTH` bits wide are naturals below `2^ELEM_WIDTH` (log 7). -/
structure Ports where
  candidate : Candidate
  v : Nat
  code : Nat
  values : List Nat
  pb : List Byte
  bytes : List Byte
  length : Nat
  expectedLength : Nat
  lineByte : Byte
  sinkCount : Nat
  deriving DecidableEq, Repr, Inhabited

/-- An operand of a script line: written out, or the result the host kept from its `k`-th latest completed
operation (R24, R96: "with host variables holding results between commands"; log 11). -/
inductive Src (α : Type) where
  | lit (a : α)
  | kept (k : Nat)
  deriving DecidableEq, Repr, Inhabited

/-- The operands a command line presents, one shape per operand column of R92's table. A line always brings its
operands: what an earlier operation had on a port is no operand (R24). -/
inductive Args where
  | none
  | candidate (c : Candidate)
  | v (x : Src Nat)
  | code (x : Src Nat)
  | values (x : Src (List Nat))
  | pb (x : Src (List Byte))
  | buffer (bytes : Src (List Byte)) (length : Src Nat)
  | expected (n : Src Nat)
  deriving DecidableEq, Repr, Inhabited

/-- What the environment chooses for an agent event: LINE's byte (R195), SINK's count (R163), or nothing. -/
inductive EnvInput where
  | none
  | lineByte (b : Byte)
  | sinkCount (w : Nat)
  deriving DecidableEq, Repr, Inhabited

/-- One line of a host script (R96), which is one step of the total order (R65): HOST presents a command, HOST
takes the next step of its READ in progress (R184 to R188), or an agent's event happens. -/
inductive ScriptLine where
  | command (code : Byte) (args : Args)
  | readStep
  | event (code : Byte) (input : EnvInput)
  deriving DecidableEq, Repr, Inhabited

end Sys2Proof
end

