-- ==== Sys2Proof/Config.lean ====
section
/-! DEFINITION. What one instance of CORE fixes: the configuration record of R21 with the hasher parameters and
the two open parameters of 00_scope.md (R162, R186), together with the proof that the Configuration Validator
accepts it (R23), the reference configuration, and the free values (opaque constants: nothing can be proved of
what they return). -/

namespace Sys2Proof

/-- `HASH_SEL` (R21, R22). The fourth number is reserved and names no variant (R95). -/
inductive HashSel where
  | hwcrc
  | crc8
  | sum
  deriving DecidableEq, Repr, Inhabited

/-- Which function the open parameter `HWCRC` is (R143): the default of R144, or the platform's own unit, of
which only R143's structure is known (log 2). -/
inductive HwCrcUnit where
  | reference
  | platform
  deriving DecidableEq, Repr, Inhabited

/-- `SER_WRITE_DIGEST_AFTER_SHORT` (R162): whether SERIALIZE writes the digest after a short payload write. -/
inductive DigestAfterShort where
  | always
  | never
  deriving DecidableEq, Repr, Inhabited

/-- `COPY_GRANULARITY` (R186). -/
inductive CopyGranularity where
  | byte
  | frame
  deriving DecidableEq, Repr, Inhabited

/-- The build-time constants, not yet checked (R8, R21 and the parameter table of 00_scope.md). -/
structure Params where
  elemSigned : Bool
  elemWidth : Nat
  n : Nat
  minimal : Nat
  maximum : Nat
  hashSel : HashSel
  rangeCapWidth : Nat
  crc8Poly : Byte
  hwCrc : HwCrcUnit
  digestAfterShort : DigestAfterShort
  copyGranularity : CopyGranularity
  deriving DecidableEq, Repr, Inhabited

/-- The number of a hasher variant (R22). -/
def HashSel.number : HashSel → BitVec 2
  | .hwcrc => 0
  | .crc8 => 1
  | .sum => 2

/-- The polynomials R147 excludes: those for which the two buffers of the source's test collide. -/
def excludedPolys : List Byte := [0x00, 0x3C, 0x60, 0x88, 0x90, 0xC0, 0xC6]

/-- A legal instance: `MINIMAL` and `MAXIMUM` are ELEM_WIDTH-bit fields and the widths are positive (R21, R100
and the parameter table), `VALIDATE` accepts (R23, R105), and the polynomial is not excluded (R147). -/
def Params.legal (p : Params) : Bool :=
  decide (1 ≤ p.elemWidth) && decide (1 ≤ p.rangeCapWidth) &&
  decide (p.minimal < 2 ^ p.elemWidth) && decide (p.maximum < 2 ^ p.elemWidth) &&
  decide (Machine.cfgErr p.elemSigned p.elemWidth p.n p.minimal p.maximum p.hashSel.number p.rangeCapWidth = 0) &&
  !excludedPolys.contains p.crc8Poly

/-- A configuration an instance exists for: the constants "together with a proof that `VALIDATE(CFG) = 0`"
(R23). A configuration the Validator rejects has no instance (U14). -/
structure Config extends Params where
  isLegal : toParams.legal = true
  deriving DecidableEq, Repr

/-- The reference configuration (00_scope.md, column "reference value"): N = 4, range [0,1000], 16-bit elements,
CRC8 with polynomial 0x07. `digestAfterShort` is left open by the spec: never (DESIGN CHOICE, log 20). -/
def Config.reference : Config where
  elemSigned := false
  elemWidth := 16
  n := 4
  minimal := 0
  maximum := 1000
  hashSel := .crc8
  rangeCapWidth := 64
  crc8Poly := 0x07
  hwCrc := .reference
  digestAfterShort := .never
  copyGranularity := .byte
  isLegal := by decide

/-- FREE VALUE: `HW_WORD_BYTES − 1` of the platform's CRC unit (R143, log 2). -/
opaque Config.platformWordBytesPred : Nat

/-- FREE VALUE: `HW_INIT` of the platform's CRC unit (R143, log 2). -/
opaque Config.platformInit : Nat

/-- FREE VALUE: `HW_STEP(acc, word)` of the platform's CRC unit (R143, log 2). -/
opaque Config.platformStep : Nat → Nat → Nat

/-- FREE VALUE: `HW_FINAL(acc)` of the platform's CRC unit (R143, log 2). -/
opaque Config.platformFinal : Nat → Byte

/-- FREE VALUE: the byte RESET number `epoch` leaves at an offset of SLOT (R39, R240: "unspecified (draw each
byte)"; log 3). -/
opaque Config.slotDraw : (epoch offset : Nat) → Byte

/-- FREE VALUE: the step the environment chooses when the script is empty (R37, R65; log 4). -/
opaque Config.envLine : (drawn : Nat) → ScriptLine

end Sys2Proof
end

