-- ==== Sys2Proof/WellFormed.lean ====
section
/-! DEFINITION. Which operands an operation may be given: the operand columns of R92's table and the port types
of R24. Every instruction is well-formed as syntax, since its code carries no operand (R92). -/

namespace Sys2Proof

/-- A code carries no operand that could be ill-formed (R92); what is checked is what is presented with it. -/
def Instr.wf : Instr → Bool
  | .validate | .normalize | .denormalize | .pack | .unpack | .calculate | .calcHwcrc | .calcCrc8 | .calcSum
  | .serialize | .deserialize | .read | .available | .engByte | .engError | .handler | .sinkWrite | .reset => true

/-- Class bit 1: an agent event, "never issued by HOST" (R92). -/
def Instr.isEvent : Instr → Bool
  | .engByte | .engError | .handler | .sinkWrite | .reset => true
  | .validate | .normalize | .denormalize | .pack | .unpack | .calculate | .calcHwcrc | .calcCrc8 | .calcSum
  | .serialize | .deserialize | .read | .available => false

/-- The pure operations of R13: total functions of their operands and the configuration. -/
def Instr.isPure : Instr → Bool
  | .validate | .normalize | .denormalize | .pack | .unpack | .calculate | .calcHwcrc | .calcCrc8 | .calcSum
  | .deserialize => true
  | .serialize | .read | .available | .engByte | .engError | .handler | .sinkWrite | .reset => false

/-- The shapes of R92's operand column: the host commands' operands and the environment's inputs to events. -/
inductive Shape where
  | none
  | candidate
  | v
  | code
  | values
  | pb
  | buffer
  | expected
  | lineByte
  | sinkCount
  deriving DecidableEq, Repr

/-- What an operation takes, the column "operands in" of R92's table. -/
def Instr.shape : Instr → Shape
  | .validate => .candidate
  | .normalize => .v
  | .denormalize => .code
  | .pack => .values
  | .unpack => .pb
  | .calculate => .buffer
  | .calcHwcrc => .buffer
  | .calcCrc8 => .buffer
  | .calcSum => .buffer
  | .serialize => .values
  | .deserialize => .buffer
  | .read => .expected
  | .available => .none
  | .engByte => .lineByte
  | .engError => .none
  | .handler => .none
  | .sinkWrite => .sinkCount
  | .reset => .none

/-- Do a command line's operands have the shape? -/
def Args.hasShape (sh : Shape) : Args → Bool
  | .none => sh == .none
  | .candidate _ => sh == .candidate
  | .v _ => sh == .v
  | .code _ => sh == .code
  | .values _ => sh == .values
  | .pb _ => sh == .pb
  | .buffer _ _ => sh == .buffer
  | .expected _ => sh == .expected

/-- Does an event line's input have the shape? -/
def EnvInput.hasShape (sh : Shape) : EnvInput → Bool
  | .none => sh == .none
  | .lineByte _ => sh == .lineByte
  | .sinkCount _ => sh == .sinkCount

/-- A candidate's bounds are fields of the candidate's own ELEM_WIDTH bits (R21, R100). -/
def Candidate.fits (c : Candidate) : Bool :=
  decide (c.minimal < 2 ^ c.elemWidth) && decide (c.maximum < 2 ^ c.elemWidth)

/-- `v` is one ELEM_WIDTH-bit value (R24). -/
def fitsElem (p : Params) (v : Nat) : Bool := decide (v < 2 ^ p.elemWidth)

/-- RawData is N values of ELEM_WIDTH bits: "length == N always" (R24, R26). -/
def fitsValues (p : Params) (vs : List Nat) : Bool := decide (vs.length = p.n) && vs.all (fitsElem p)

/-- A PackedBuffer has the given fixed size (R24, R27). -/
def fitsPacked (packedSize : Nat) (pb : List Byte) : Bool := decide (pb.length = packedSize)

/-- A caller buffer holds at least the bytes its stated length counts (R24, R52). -/
def fitsBuffer (bytes : List Byte) (length : Nat) : Bool := decide (length ≤ bytes.length)

/-- Every operand port holds a value of its type (R24). -/
def Ports.fit (p : Params) (packedSize : Nat) (x : Ports) : Bool :=
  x.candidate.fits && fitsElem p x.v && fitsValues p x.values && fitsPacked packedSize x.pb &&
  fitsBuffer x.bytes x.length

end Sys2Proof
end

