-- ==== Sys2Proof/Decode.lean ====
section
/-! DEFINITION. The decoder of the operation codes of R92, total on any bytes and rejecting by name (R94), and
after it the encoder, written from the same fields: class bit 7, unit bits 6:4, function bits 3:0; event number
bits 6:0. -/

namespace Sys2Proof

/-- Why no operation is selected (R94). -/
inductive DecodeError where
  /-- no byte was given -/
  | noBytes
  /-- the code is not in the table of R92 -/
  | unassigned (code : Byte)
  deriving DecidableEq, Repr, Inhabited

/-- What the decoder answers: an operation and the bytes after its code, or a rejection by name. -/
inductive Decoded where
  | ok (i : Instr) (rest : List Byte)
  | rejected (e : DecodeError)
  deriving DecidableEq, Repr, Inhabited

/-- Bit 7 of a code, its class (R92). -/
def codeClass (c : Byte) : BitVec 1 := c.extractLsb' 7 1

/-- Bits 6:4 of a code, a host command's unit (R92). -/
def codeUnit (c : Byte) : BitVec 3 := c.extractLsb' 4 3

/-- Bits 3:0 of a code, a host command's function within its unit (R92). -/
def codeFunction (c : Byte) : BitVec 4 := c.extractLsb' 0 4

/-- Bits 6:0 of a code, an agent event's number (R92). -/
def codeEvent (c : Byte) : BitVec 7 := c.extractLsb' 0 7

/-- The host command with a unit and a function number, from the table of R92. -/
def commandOf : (unit function : Nat) → Option Instr
  | 0, 0 => some .validate
  | 0, 1 => some .normalize
  | 0, 2 => some .denormalize
  | 1, 0 => some .pack
  | 1, 1 => some .unpack
  | 2, 0 => some .calculate
  | 2, 1 => some .calcHwcrc
  | 2, 2 => some .calcCrc8
  | 2, 3 => some .calcSum
  | 3, 0 => some .serialize
  | 3, 1 => some .deserialize
  | 4, 0 => some .read
  | 4, 1 => some .available
  | _, _ => none

/-- The agent event with a number, from the table of R92. -/
def eventOf : (number : Nat) → Option Instr
  | 0x00 => some .engByte
  | 0x01 => some .engError
  | 0x02 => some .handler
  | 0x03 => some .sinkWrite
  | 0x0F => some .reset
  | _ => none

/-- The operation an 8-bit code selects; "Every 8-bit value not in the table of rule R92 selects no operation"
(R94). -/
def decodeCode (c : Byte) : Option Instr :=
  if codeClass c = 0 then commandOf (codeUnit c).toNat (codeFunction c).toNat
  else eventOf (codeEvent c).toNat

/-- The decoder over bytes: one code is one byte (R92). -/
def decode : List Byte → Decoded
  | [] => .rejected .noBytes
  | c :: rest =>
    match decodeCode c with
    | some i => .ok i rest
    | none => .rejected (.unassigned c)

/-- A host command's code: class 0, unit, function (R92). -/
def commandCode (unit : BitVec 3) (function : BitVec 4) : Byte := (0#1 ++ unit ++ function : BitVec 8)

/-- An agent event's code: class 1, event number (R92). -/
def eventCode (number : BitVec 7) : Byte := (1#1 ++ number : BitVec 8)

/-- The code of an operation, from the fields R92's table gives it. -/
def encodeCode : Instr → Byte
  | .validate => commandCode 0 0
  | .normalize => commandCode 0 1
  | .denormalize => commandCode 0 2
  | .pack => commandCode 1 0
  | .unpack => commandCode 1 1
  | .calculate => commandCode 2 0
  | .calcHwcrc => commandCode 2 1
  | .calcCrc8 => commandCode 2 2
  | .calcSum => commandCode 2 3
  | .serialize => commandCode 3 0
  | .deserialize => commandCode 3 1
  | .read => commandCode 4 0
  | .available => commandCode 4 1
  | .engByte => eventCode 0x00
  | .engError => eventCode 0x01
  | .handler => eventCode 0x02
  | .sinkWrite => eventCode 0x03
  | .reset => eventCode 0x0F

/-- The words of an instruction: its one code byte (R92). -/
def encode (i : Instr) : List Byte := [encodeCode i]

/-- The first byte of an instruction whose table bits are `w` (a code is one byte, R92). -/
def tableCode (nbits w : Nat) : Byte := BitVec.ofNat 8 (w % 2 ^ nbits)

/-- The instruction the decoder reads from the word `w` of the opcode table, laid out as bytes, lowest first. -/
def decodeTableWord (nbits w : Nat) : Option Instr :=
  match decode [tableCode nbits w] with
  | .ok i _ => some i
  | .rejected _ => none

end Sys2Proof
end

