-- ==== Sys2Proof/Machine/Derived.lean ====
section
/-! DEFINITION. The derived constants of a configuration (R9, R23, R101 to R104), functions of `CFG` alone. -/

namespace Sys2Proof

/-- `RANGE = MAXIMUM − MINIMAL` (R101). -/
def Params.range (p : Params) : Nat := p.maximum - p.minimal

/-- `BITWIDTH = bitlen(RANGE)` (R102). -/
def Params.bitWidth (p : Params) : Nat := Machine.bitlen p.range

/-- `MASK = mask(BITWIDTH)` (R103). -/
def Params.mask (p : Params) : Nat := Machine.maskOf p.bitWidth

/-- `PACKED_SIZE = ceil(N·BITWIDTH / 8)` (R104). -/
def Params.packedSize (p : Params) : Nat := Machine.bytesFor (p.n * p.bitWidth)

/-- `DIGEST_SIZE = 1` (R104, R55). -/
def Params.digestSize (_ : Params) : Nat := 1

/-- `FRAME_SIZE = PACKED_SIZE + DIGEST_SIZE` (R104). -/
def Params.frameSize (p : Params) : Nat := p.packedSize + p.digestSize

/-- `REGION_SIZE = FRAME_SIZE` (R104). -/
def Params.regionSize (p : Params) : Nat := p.frameSize

end Sys2Proof
end

