-- ==== Sys2Proof/Machine/State.lean ====
section
/-! DEFINITION. The state of the machine as plain data, why a
step can stop, and the state right after reset (R23 to R40). -/

namespace Sys2Proof

namespace Machine

/-- `RDY`, the readiness flag (R29, R180). -/
inductive Readiness where
  | idle
  | full
  deriving DecidableEq, Repr

/-- `RD_PHASE`, the position of a READ in progress (R25). -/
inductive RdPhase where
  | idle
  | wait
  | mask
  | copy
  | resample
  | unmask
  deriving DecidableEq, Repr

/-- `SER_PHASE`, which step of a SERIALIZE in progress is next (R25, R162). -/
inductive SerPhase where
  | idle
  | writePayload
  | writeDigest
  deriving DecidableEq, Repr

/-- The result ports (R24, column "results out" of R92). `none`: the port holds nothing (R39, R169). -/
structure Results where
  cfgerr : Option (BitVec 5) := none
  v : Option Nat := none
  code : Option Nat := none
  values : Option (List Nat) := none
  pb : Option (List Byte) := none
  digest : Option Byte := none
  ok : Option Bool := none
  bytesRead : Option Nat := none
  byteCount : Option Nat := none
  rx : Option (List Byte) := none
  bytesWritten : Option Nat := none
  deriving DecidableEq, Repr

/-- Everything the spec gives CORE and its environment (INVENTORY.md, "State"). -/
structure State where
  /-- the configuration of the instance: no step writes it (R21) -/
  cfg : Config
  /-- SLOT: the bytes ENGINE has written since reset, as (offset, byte), offsets rising (R28; log 3) -/
  slot : List Host.Cell
  /-- model's own: which RESET drew the bytes not listed in `slot` (log 3) -/
  slotEpoch : Nat
  /-- RDY (R29) -/
  rdy : Readiness
  /-- TC, the engine's completion indicator (R30) -/
  tc : Bool
  /-- TE, the engine's transfer-error indicator (R31) -/
  te : Bool
  /-- IM, the interrupt mask (R32) -/
  im : Bool
  /-- WIDX, the engine's index into SLOT (R33) -/
  widx : Nat
  /-- RD_PHASE (R25) -/
  rdPhase : RdPhase
  /-- RD_K, READ's copy index (R25, R34) -/
  rdK : Nat
  /-- the bytes the READ in progress has copied so far (R34) -/
  rx : List Byte
  /-- SER_PHASE (R25, R162) -/
  serPhase : SerPhase
  /-- `pb` of the SERIALIZE in progress (R160, step S1) -/
  serPb : List Byte
  /-- `d` of the SERIALIZE in progress (R160, step S1) -/
  serDigest : Byte
  /-- `w1` of the SERIALIZE in progress (R160, step S2) -/
  serW1 : Nat
  /-- SINKLOG, the bytes the sink has accepted (R36) -/
  sinkLog : List Byte
  /-- the operand ports (R24): loaded and emptied within the step of the operation they carry -/
  ports : Ports
  /-- the result ports (R24): written and emptied within the step that returns them -/
  res : Results
  /-- the results the host kept, newest first (R24, R96; log 11) -/
  hostVars : List Results
  /-- the steps the environment has chosen, next first (R65, R96; log 4) -/
  script : List ScriptLine
  /-- model's own: how many lines were drawn from the free environment (log 4) -/
  drawn : Nat
  deriving DecidableEq, Repr

/-- Why the machine would stop with a fault. CORE has none at run time (R210). -/
inductive Fault where
  /-- an access to SLOT at an offset outside `0 .. REGION_SIZE−1`, an address that does not exist (R50): raised by
  ENG_BYTE and by READ's copy step in states no run reaches (Safety.lean's `Inv` rules them out). Safe. -/
  | slotOffset
  deriving DecidableEq, Repr

/-- Why a step is refused. Every one is safe: the model stops where the spec gives no step. -/
inductive Refusal where
  /-- exec, for an instruction with no meaning yet (none is left) -/
  | notModelled (mnemonic : String)
  /-- the script: a code outside R92's table (R94) -/
  | unassignedCode
  /-- the script: HOST presented an agent event's code (R94) -/
  | eventCodeFromHost
  /-- the script: an agent event line carries a host command's code (R92: bit 7 = 0 is issued by HOST) -/
  | commandCodeFromAgent
  /-- the script: operands of another operation's shape (R92; log 7) -/
  | operandShape
  /-- the script: an operand that is no value of its port's type (R24, R26; log 7) -/
  | operandType
  /-- the script: the host uses a result that is absent (R169, U8; log 11) -/
  | absentResult
  /-- HOST issues a command while one is in progress (R20; log 13) -/
  | hostBusy
  /-- a READ is issued while another READ is in progress (R182, R251; log 13) -/
  | readInProgress
  /-- the script: HOST has no READ in progress to continue (R25) -/
  | noReadInProgress
  /-- HANDLER has no step: IM = 1, or neither TC nor TE is set (R198; log 8) -/
  | handlerNotEnabled
  /-- SINK_WRITE while CORE presents no write (R163; log 9) -/
  | noWritePresented
  /-- SINK answers a count above the length, "outside the contract" (R163; log 9) -/
  | sinkOverReport
  deriving DecidableEq, Repr

/-- Operand ports that "hold nothing" (R39), as they are whenever no operation is being carried (R24): the model holds
zeros of each port's type then (DESIGN CHOICE, log 6). -/
def emptyPorts (p : Params) : Ports where
  candidate := { elemSigned := false, elemWidth := 0, n := 0, minimal := 0, maximum := 0, hashSel := 0 }
  v := 0
  code := 0
  values := List.replicate p.n 0
  pb := List.replicate p.packedSize 0
  bytes := []
  length := 0
  expectedLength := 0
  lineByte := 0
  sinkCount := 0

/-- The state right after RESET of an instance with configuration `cfg` (R39, R240). -/
def State.afterReset (cfg : Config) : State where
  cfg := cfg
  slot := []
  slotEpoch := 0
  rdy := .idle
  tc := false
  te := false
  im := false
  widx := 0
  rdPhase := .idle
  rdK := 0
  rx := []
  serPhase := .idle
  serPb := []
  serDigest := 0
  serW1 := 0
  sinkLog := []
  ports := emptyPorts cfg.toParams
  res := {}
  hostVars := []
  script := []
  drawn := 0

/-- The machine right after reset: the reference instance (log 1). Its SLOT lists nothing: every byte of it is a
free value (R39, log 3). -/
def State.reset : State := State.afterReset Config.reference

end Machine
end Sys2Proof
end

