-- ==== Sys2Proof/Machine/Flags.lean ====
section
/-! DEFINITION. The two-flag handshake: TC and TE of the engine, RDY of the consumer, IM, and the level request
they make (R29 to R35, R180, R214, R215). -/

namespace Sys2Proof.Machine

/-- The interrupt request: the level `TC OR TE`; there is no pending latch (R35, R214). -/
def State.irq (s : State) : Bool := s.tc || s.te

/-- HANDLER has a step exactly when `IM = 0` and the request is raised (R198). -/
def State.handlerEnabled (s : State) : Bool := !s.im && s.irq

/-- What READ's resample writes to RDY: `full if t = 1 else idle` (R187). -/
def readinessOf (tc : Bool) : Readiness := if tc then .full else .idle

/-- AVAILABLE's count for a value of RDY (R190). -/
def byteCountOf (regionSize : Nat) : Readiness → Nat
  | .full => regionSize
  | .idle => 0

/-- `IM <- b` (R185, R188). -/
def State.setIm (s : State) (b : Bool) : State := { s with im := b }

/-- `RDY <- r` (R187, R199). -/
def State.setRdy (s : State) (r : Readiness) : State := { s with rdy := r }

/-- `TC <- b` (R195, R199). -/
def State.setTc (s : State) (b : Bool) : State := { s with tc := b }

/-- `TE <- b` (R197, R198). -/
def State.setTe (s : State) (b : Bool) : State := { s with te := b }

/-- HOST has an operation in progress: it "issues one command at a time and waits for its result" (R20, R25). -/
def State.hostBusy (s : State) : Bool := decide (s.rdPhase ≠ .idle) || decide (s.serPhase ≠ .idle)

end Sys2Proof.Machine
end

