-- ==== Sys2Proof/Machine/Ops.lean ====
section
/-! DEFINITION. The operations the meanings share: SLOT as a canonical list of cells, returning an operation's
results, appending to the sink, and taking the completion signal (R198, R199, R219, R220). -/

namespace Sys2Proof.Machine

/-- The byte a memory lists at an offset, if it lists one. -/
def Mem.lookup : List Host.Cell → Nat → Option Byte
  | [], _ => none
  | (a, b) :: m, x => if a = x then some b else Mem.lookup m x

/-- Write one byte, keeping the offsets strictly rising. -/
def Mem.write : List Host.Cell → Nat → Byte → List Host.Cell
  | [], x, v => [(x, v)]
  | (a, b) :: m, x, v =>
    if x < a then (x, v) :: (a, b) :: m
    else if x = a then (x, v) :: m
    else (a, b) :: Mem.write m x v

/-- Every offset listed is above `lo` and they rise strictly. -/
def Mem.rising : Nat → List Host.Cell → Bool
  | _, [] => true
  | lo, (a, _) :: m => decide (lo < a) && Mem.rising a m

/-- The canonical form of a memory: offsets strictly rising. An unlisted offset has not been written since
reset and reads as a free byte, which equals no listed byte provably, so no entry is redundant (log 3). -/
def Mem.wf : List Host.Cell → Bool
  | [] => true
  | (a, _) :: m => Mem.rising a m

/-- What an offset of SLOT reads as: the byte ENGINE wrote there last, else the byte RESET drew (R28, R39, R58). -/
def State.slotByte (s : State) (x : Nat) : Byte :=
  (Mem.lookup s.slot x).getD (Config.slotDraw s.slotEpoch x)

/-- The whole region as SLOT stands, offset 0 first. -/
def State.slotBytes (s : State) : List Byte := (List.range s.cfg.regionSize).map s.slotByte

/-- `MemWrite(SLOT, x, 1, b)` (R195). -/
def State.putSlot (s : State) (x : Nat) (b : Byte) : State := { s with slot := Mem.write s.slot x b }

/-- Is an offset one of SLOT's, `0 .. REGION_SIZE−1` (R50)? -/
def State.inRegion (s : State) (x : Nat) : Bool := decide (x < s.cfg.regionSize)

/-- An operation completes: its results stand on the result ports, and the host takes them into its own variables
(R24, R96; log 11) before the step ends and empties the ports. -/
def State.answer (s : State) (r : Results) : State := { s with res := r, hostVars := r :: s.hostVars }

/-- SERIALIZE completes in the step of its last SINK_WRITE: the host takes `ok` and nothing else ("SERIALIZE and
DESERIALIZE report only `ok`", R218; R160), and SINK_WRITE's count stands on its port, whose reader is CORE (R163). -/
def State.returnOk (s : State) (ok : Bool) (count : Nat) : State :=
  { s with res := { ok := some ok, bytesWritten := some count }, hostVars := { ok := some ok } :: s.hostVars }

/-- The step of an operation is over: "a port holds a value only for the duration of the operation that carries it"
(R24), so every port is emptied. The host has its results in its own variables by then (R96). -/
def State.closePorts (s : State) : State := { s with ports := emptyPorts s.cfg.toParams, res := {} }

/-- The end of a step, in each of its outcomes. -/
def endStep : Host.Outcome State Fault Refusal → Host.Outcome State Fault Refusal
  | .next s => .next s.closePorts
  | .fault f => .fault f
  | .refused r => .refused r

/-- An operation is under way and has no result yet: the result ports hold nothing (R24). -/
def State.clearResults (s : State) : State := { s with res := {} }

/-- No READ is in progress: RD_K and rx are not state (R34; log 12). -/
def State.endRead (s : State) : State := { s with rdPhase := .idle, rdK := 0, rx := [] }

/-- No SERIALIZE is in progress (R25; log 33). -/
def State.endSerialize (s : State) : State :=
  { s with serPhase := .idle, serPb := [], serDigest := 0, serW1 := 0 }

/-- `SINKLOG <- SINKLOG ++ bytes` (R36, R163). -/
def State.appendSink (s : State) (bytes : List Byte) : State := { s with sinkLog := s.sinkLog ++ bytes }

/-- Taking the completion signal, the one interrupt of CORE: the handler's whole body, one atomic step. Entry
saves nothing and changes no mode (R219). The error indicator is checked first: if set, it is cleared and the
handler returns, TC and RDY unchanged (R198, R217); otherwise TC is cleared, then RDY raised (R199). -/
def State.takeCompletionSignal (s : State) : State :=
  if s.te then s.setTe false
  else (s.setTc false).setRdy .full

/-- The return from the handler: nothing is restored because nothing was saved; HOST resumes with its own state
untouched (R220). -/
def State.returnFromHandler (s : State) : State := s

end Sys2Proof.Machine
end

