-- ==== Sys2Proof/Machine/Operands.lean ====
section
/-! DEFINITION. Every operand form: how a script line's operands come onto the operand ports, written out or from
a result the host kept (R24, R92, R96), and what an operation reads from a port. -/

namespace Sys2Proof.Machine

/-- The number a kept result holds: the code of NORMALIZE, the value of DENORMALIZE, or the count of READ or
AVAILABLE (R96, log 11). -/
def Results.number (r : Results) : Option Nat :=
  r.code.or (r.v.or (r.bytesRead.or r.byteCount))

/-- The byte sequence a kept result holds: PACK's `pb` or READ's `rx` (R96, log 11). -/
def Results.byteSeq (r : Results) : Option (List Byte) := r.pb.or r.rx

/-- Look up an operand: written out, or a port of a kept result. An absent result is no value: "never the
previous result, not zeros, not the decoded payload" (R169). -/
def resolve {α : Type} (port : Results → Option α) (vars : List Results) : Src α → Except Refusal α
  | .lit a => .ok a
  | .kept k =>
    match vars[k]? with
    | none => .error .absentResult
    | some r =>
      match port r with
      | none => .error .absentResult
      | some a => .ok a

/-- Accept an operand of its port's type, refuse any other (R24; log 7). -/
def accept (typed : Bool) (p : Ports) : Except Refusal Ports :=
  if typed then .ok p else .error .operandType

/-- Put a command's operands on the ports, which hold nothing before (R24). The shape is checked by
`loadOperands`. -/
def loadArgs (s : State) : Args → Except Refusal Ports
  | .none => .ok (emptyPorts s.cfg.toParams)
  | .candidate c => accept c.fits { emptyPorts s.cfg.toParams with candidate := c }
  | .v x =>
    match resolve Results.number s.hostVars x with
    | .error e => .error e
    | .ok v => accept (fitsElem s.cfg.toParams v) { emptyPorts s.cfg.toParams with v := v }
  | .code x =>
    match resolve Results.number s.hostVars x with
    | .error e => .error e
    | .ok c => .ok { emptyPorts s.cfg.toParams with code := c }
  | .values x =>
    match resolve Results.values s.hostVars x with
    | .error e => .error e
    | .ok vs => accept (fitsValues s.cfg.toParams vs) { emptyPorts s.cfg.toParams with values := vs }
  | .pb x =>
    match resolve Results.byteSeq s.hostVars x with
    | .error e => .error e
    | .ok b => accept (fitsPacked s.cfg.packedSize b) { emptyPorts s.cfg.toParams with pb := b }
  | .buffer b n =>
    match resolve Results.byteSeq s.hostVars b, resolve Results.number s.hostVars n with
    | .ok bs, .ok len => accept (fitsBuffer bs len) { emptyPorts s.cfg.toParams with bytes := bs, length := len }
    | .error e, _ => .error e
    | .ok _, .error e => .error e
  | .expected n =>
    match resolve Results.number s.hostVars n with
    | .error e => .error e
    | .ok len => .ok { emptyPorts s.cfg.toParams with expectedLength := len }

/-- Present a command's operands (R92, R24). -/
def loadOperands (i : Instr) (a : Args) (s : State) : Except Refusal Ports :=
  if a.hasShape i.shape then loadArgs s a else .error .operandShape

/-- Put what the environment chose for an event on its input port (R163, R195). -/
def loadEnv (s : State) : EnvInput → Ports
  | .none => emptyPorts s.cfg.toParams
  | .lineByte b => { emptyPorts s.cfg.toParams with lineByte := b }
  | .sinkCount w => { emptyPorts s.cfg.toParams with sinkCount := w }

/-- Present an event's input (R92). -/
def loadInput (i : Instr) (x : EnvInput) (s : State) : Except Refusal Ports :=
  if x.hasShape i.shape then .ok (loadEnv s x) else .error .operandShape

/-- The byte sequence operand: "a byte sequence of `length` bytes" (R24); nothing past the stated length is read
(R52). -/
def bufferOperand (p : Ports) : List Byte := p.bytes.take p.length

end Sys2Proof.Machine
end

