-- ==== Sys2Proof/Machine/Validator.lean ====
section
/-! DEFINITION. The Configuration Validator (40_validator.md): VALIDATE, NORMALIZE, DENORMALIZE. -/

namespace Sys2Proof.Machine

/-- `normalize(v) = clamp(v, minimal, maximum) − minimal` (R107). -/
def normalizeValue (p : Params) (v : Nat) : Nat := clampTo p.minimal p.maximum v - p.minimal

/-- `((code AND MASK) + MINIMAL) mod 2^ELEM_WIDTH` (R108). -/
def denormalizeCode (p : Params) (code : Nat) : Nat := ((code &&& p.mask) + p.minimal) % 2 ^ p.elemWidth

/-- VALIDATE of a candidate under an instance's RANGE_CAP_WIDTH (R105). -/
def validate (cap : Nat) (c : Candidate) : BitVec 5 :=
  cfgErr c.elemSigned c.elemWidth c.n c.minimal c.maximum c.hashSel cap

/-- VALIDATE, 0x00 (R105): reads its operand, writes no state. -/
def execValidate (s : State) : Host.Outcome State Fault Refusal :=
  .next (s.answer { cfgerr := some (validate s.cfg.rangeCapWidth s.ports.candidate) })

/-- NORMALIZE, 0x01 (R107). -/
def execNormalize (s : State) : Host.Outcome State Fault Refusal :=
  .next (s.answer { code := some (normalizeValue s.cfg.toParams s.ports.v) })

/-- DENORMALIZE, 0x02 (R108). -/
def execDenormalize (s : State) : Host.Outcome State Fault Refusal :=
  .next (s.answer { v := some (denormalizeCode s.cfg.toParams s.ports.code) })

end Sys2Proof.Machine
end

