-- ==== Sys2Proof/Machine/Codec.lean ====
section
/-! DEFINITION. The Bit-Packing Codec (41_codec.md): PACK, UNPACK, by the layout of R82: code bit k of element i is
global bit `i·BITWIDTH + k`, and global bit g is bit `g mod 8` of byte `g div 8`. -/

namespace Sys2Proof.Machine

/-- Global bit `g` of the packed bit string of some codes: bit `g mod BITWIDTH` of code `g div BITWIDTH` for the
field bits, 0 for the padding (R82, R84, R122). -/
def packedBit (p : Params) (codes : List Nat) (g : Nat) : Bool :=
  decide (g < p.n * p.bitWidth) && (codes.getD (g / p.bitWidth) 0).testBit (g % p.bitWidth)

/-- The PackedBuffer of some codes: `PACKED_SIZE` bytes, each written once as a whole (R120, R61). -/
def packCodes (p : Params) (codes : List Nat) : List Byte :=
  (List.range p.packedSize).map fun j => byteOfBits fun m => packedBit p codes (8 * j + m)

/-- `pack(values[N]) → PackedBuffer` (R120). -/
def pack (p : Params) (values : List Nat) : List Byte := packCodes p (values.map (normalizeValue p))

/-- The raw code of element `i` of a buffer (R88, R124). -/
def rawCode (p : Params) (pb : List Byte) (i : Nat) : Nat :=
  natOfBits ((List.range p.bitWidth).map fun k => bufBit pb (i * p.bitWidth + k))

/-- `unpack(PackedBuffer) → values[N]` (R124). -/
def unpack (p : Params) (pb : List Byte) : List Nat :=
  (List.range p.n).map fun i => denormalizeCode p (rawCode p pb i)

/-- PACK, 0x10 (R120). -/
def execPack (s : State) : Host.Outcome State Fault Refusal :=
  .next (s.answer { pb := some (pack s.cfg.toParams s.ports.values) })

/-- UNPACK, 0x11 (R124). -/
def execUnpack (s : State) : Host.Outcome State Fault Refusal :=
  .next (s.answer { values := some (unpack s.cfg.toParams s.ports.pb) })

end Sys2Proof.Machine
end

