-- ==== Sys2Proof/Machine/Hasher.lean ====
section
/-! DEFINITION. The Integrity Hasher (42_hasher.md): the three variants and CALC, which runs the one HASH_SEL
names. -/

namespace Sys2Proof.Machine

/-- Apply a round `k` times. -/
def rounds {α : Type} (f : α → α) : Nat → α → α
  | 0, c => c
  | k + 1, c => rounds f k (f c)

/-- One bit of the CRC-8 shift register, most significant bit first (R145). -/
def crc8Round (poly c : Byte) : Byte := if c.msb then (c <<< 1) ^^^ poly else c <<< 1

/-- One byte into the CRC-8 (R145). -/
def crc8Byte (poly c b : Byte) : Byte := rounds (crc8Round poly) 8 (c ^^^ b)

/-- CALC.CRC8: zero initial value, no final XOR (R145). -/
def crc8 (poly : Byte) (bytes : List Byte) : Byte := bytes.foldl (crc8Byte poly) 0

/-- CALC.SUM: byte-wise sum modulo 256 from 0 (R148). -/
def sum8 (bytes : List Byte) : Byte := bytes.foldl (· + ·) 0

/-- The words CALC.HWCRC consumes, in ascending order: `w` bytes each, little-endian, the remainder zero-padded
above (R143, R56, R60). -/
def hwWords (w : Nat) (bytes : List Byte) : List Nat :=
  (List.range ((bytes.length + w - 1) / w)).map fun j => natOfBytes ((bytes.drop (w * j)).take w)

/-- R143's structure: one accumulator over the words, started anew at every call, narrowed to one byte. -/
def hwCrcWith {α : Type} (w : Nat) (init : α) (stepWord : α → Nat → α) (final : α → Byte) (bytes : List Byte) :
    Byte :=
  final ((hwWords w bytes).foldl stepWord init)

/-- One bit of the reference unit, polynomial 0x04C11DB7 (R144). -/
def hwRound (acc : Acc32) : Acc32 := if acc.msb then (acc <<< 1) ^^^ 0x04C11DB7#32 else acc <<< 1

/-- `HW_STEP` of the reference unit (R144). -/
def hwStep (acc : Acc32) (w : Nat) : Acc32 := rounds hwRound 32 (acc ^^^ BitVec.ofNat 32 w)

/-- The function `HWCRC` of an instance: the reference unit of R144, or the platform's, of which only the
structure is known (R143, log 2). -/
def hwCrc : HwCrcUnit → List Byte → Byte
  | .reference => hwCrcWith 4 0xFFFFFFFF#32 hwStep (fun acc => acc.setWidth 8)
  | .platform =>
    hwCrcWith (Config.platformWordBytesPred + 1) Config.platformInit Config.platformStep Config.platformFinal

/-- `calculate(bytes) → Digest` with the variant HASH_SEL names (R141). -/
def calculate (p : Params) (bytes : List Byte) : Byte :=
  match p.hashSel with
  | .hwcrc => hwCrc p.hwCrc bytes
  | .crc8 => crc8 p.crc8Poly bytes
  | .sum => sum8 bytes

/-- CALC, 0x20 (R141). -/
def execCalc (s : State) : Host.Outcome State Fault Refusal :=
  .next (s.answer { digest := some (calculate s.cfg.toParams (bufferOperand s.ports)) })

/-- CALC.HWCRC, 0x21, whatever HASH_SEL is (R143, R93). -/
def execCalcHwcrc (s : State) : Host.Outcome State Fault Refusal :=
  .next (s.answer { digest := some (hwCrc s.cfg.hwCrc (bufferOperand s.ports)) })

/-- CALC.CRC8, 0x22, whatever HASH_SEL is (R145, R93). -/
def execCalcCrc8 (s : State) : Host.Outcome State Fault Refusal :=
  .next (s.answer { digest := some (crc8 s.cfg.crc8Poly (bufferOperand s.ports)) })

/-- CALC.SUM, 0x23, whatever HASH_SEL is (R148, R93). -/
def execCalcSum (s : State) : Host.Outcome State Fault Refusal :=
  .next (s.answer { digest := some (sum8 (bufferOperand s.ports)) })

end Sys2Proof.Machine
end

