-- ==== Sys2Proof/Machine/Serializer.lean ====
section
/-! DEFINITION. The Frame Serializer (43_serializer.md): SERIALIZE's step S1, the sink writes that are its steps
S2 and S3, and DESERIALIZE. -/

namespace Sys2Proof.Machine

/-- The cause labels of R212. They are not state and no host sees them (log 34). -/
inductive Cause where
  | ceSigned
  | ceOrder
  | ceCount
  | ceWidth
  | ceCapacity
  | shortWrite
  | shortFrame
  | digestMismatch
  | lengthMismatch
  | transferError
  deriving DecidableEq, Repr

/-- The frame of some values: PackedBuffer then digest (R80, R85). -/
def frameOf (p : Params) (values : List Nat) : List Byte :=
  pack p values ++ [calculate p (pack p values)]

/-- `deserialize(bytes, length)`: the length test first, by `length` alone; then the digest; UNPACK only on match
(R165 to R168, R170). -/
def deserialize (p : Params) (bytes : List Byte) (length : Nat) : Except Cause (List Nat) :=
  if length < p.frameSize then .error .shortFrame
  else if calculate p (bytes.take p.packedSize) ≠ bytes.getD p.packedSize 0 then .error .digestMismatch
  else .ok (unpack p (bytes.take p.packedSize))

/-- What DESERIALIZE returns: `(values, ok)`, with `values` absent on failure (R165, R169, R173). -/
def deserializeResults : Except Cause (List Nat) → Results
  | .ok vs => { values := some vs, ok := some true }
  | .error _ => { ok := some false }

/-- The bytes CORE presents to the sink now: the payload, then the one digest byte (R160 steps S2, S3, R161);
nothing while no SERIALIZE is in progress. -/
def State.writePresented (s : State) : Option (List Byte × Nat) :=
  match s.serPhase with
  | .idle => none
  | .writePayload => some (s.serPb, s.cfg.packedSize)
  | .writeDigest => some ([s.serDigest], s.cfg.digestSize)

/-- Step S2 after the sink answered `w1` (R160, R162, R164): a short write ends SERIALIZE with `ok = 0` when the
digest is never written after it; otherwise the digest write is next. -/
def State.afterPayload (s : State) (w1 : Nat) : State :=
  if w1 ≠ s.cfg.packedSize ∧ s.cfg.digestAfterShort = .never then
    s.endSerialize.returnOk false w1
  else
    { s with serPhase := .writeDigest, serW1 := w1, res := { bytesWritten := some w1 } }

/-- Step S3 after the sink answered `w2` (R160): `ok` only if each write reported the expected count. -/
def State.afterDigest (s : State) (w2 : Nat) : State :=
  s.endSerialize.returnOk (decide (s.serW1 = s.cfg.packedSize) && decide (w2 = s.cfg.digestSize)) w2

/-- Step S1 of SERIALIZE (R160, R161): the PackedBuffer, then its digest, before any byte is written; the values
are read once, here. -/
def State.startSerialize (s : State) : State :=
  { s.clearResults with
    serPhase := .writePayload
    serPb := pack s.cfg.toParams s.ports.values
    serDigest := calculate s.cfg.toParams (pack s.cfg.toParams s.ports.values)
    serW1 := 0 }

/-- SERIALIZE, 0x30 (R160): its step S1; steps S2 and S3 are the two SINK_WRITE events. Refused while HOST has an
operation in progress (R20, log 13). -/
def execSerialize (s : State) : Host.Outcome State Fault Refusal :=
  if s.hostBusy then .refused .hostBusy else .next s.startSerialize

/-- DESERIALIZE, 0x31 (R165). One step. -/
def execDeserialize (s : State) : Host.Outcome State Fault Refusal :=
  .next (s.answer (deserializeResults (deserialize s.cfg.toParams s.ports.bytes s.ports.length)))

/-- SINK_WRITE, 0x83 (R163): the sink answers `w` in `0 .. length`, its first `w` bytes are appended to SINKLOG,
and SERIALIZE goes on with the count. No write presented, or a count above the length ("outside the contract"):
no such event exists (log 9). -/
def execSinkWrite (s : State) : Host.Outcome State Fault Refusal :=
  match s.serPhase with
  | .idle => .refused .noWritePresented
  | .writePayload =>
    if s.ports.sinkCount ≤ s.cfg.packedSize then
      .next ((s.appendSink (s.serPb.take s.ports.sinkCount)).afterPayload s.ports.sinkCount)
    else .refused .sinkOverReport
  | .writeDigest =>
    if s.ports.sinkCount ≤ s.cfg.digestSize then
      .next ((s.appendSink ([s.serDigest].take s.ports.sinkCount)).afterDigest s.ports.sinkCount)
    else .refused .sinkOverReport

end Sys2Proof.Machine
end

