-- ==== Sys2Proof/Machine/Transport.lean ====
section
/-! DEFINITION. The Transport Buffer (44_transport.md): READ and its steps, AVAILABLE, the engine's two events and
the completion-signal handler; and RESET (70_reset_and_hazards.md R240). -/

namespace Sys2Proof.Machine

/-- READ, 0x40, as HOST issues it: a wrong length returns 0 at once and touches no transport state (R181);
otherwise the READ starts and its wait is next (R183). A READ while one is in progress is refused (R182), and so
is one while SERIALIZE is in progress (R20, log 13). IM = 1 is no ground for a refusal (U10, R250). -/
def execRead (s : State) : Host.Outcome State Fault Refusal :=
  if s.ports.expectedLength ≠ s.cfg.regionSize then .next (s.answer { bytesRead := some 0 })
  else if s.rdPhase ≠ .idle then .refused .readInProgress
  else if s.serPhase ≠ .idle then .refused .hostBusy
  else .next { s.clearResults with rdPhase := .wait }

/-- READ's wait step (R184): one read of RDY; `idle` changes nothing. -/
def readWait (s : State) : State :=
  match s.rdy with
  | .full => { s with rdPhase := .mask }
  | .idle => s

/-- READ's mask step (R185): the old value of IM is not saved. -/
def readMask (s : State) : State := { s.setIm true with rdK := 0, rx := [], rdPhase := .copy }

/-- One byte of READ's copy, `rx[RD_K] <- SLOT[RD_K]`, RD_K post-incremented (R186, R207). -/
def readCopyByte (s : State) : State :=
  { s with
    rx := s.rx ++ [s.slotByte s.rdK]
    rdK := s.rdK + 1
    rdPhase := if s.rdK + 1 = s.cfg.regionSize then .resample else .copy }

/-- READ's copy as one atomic step, `COPY_GRANULARITY = frame` (R186). -/
def readCopyFrame (s : State) : State :=
  { s with rx := s.slotBytes, rdK := s.cfg.regionSize, rdPhase := .resample }

/-- READ's resample step (R187): RDY becomes what TC says; TC is not cleared. -/
def readResample (s : State) : State := { s.setRdy (readinessOf s.tc) with rdPhase := .unmask }

/-- READ's unmask step (R188): IM is 0 whatever it was before, and READ returns the region size and the bytes. -/
def readUnmask (s : State) : State :=
  ((s.setIm false).endRead).answer { bytesRead := some s.cfg.regionSize, rx := some s.rx }

/-- HOST's next step of the READ in progress (R184 to R189). -/
def readStep (s : State) : Host.Outcome State Fault Refusal :=
  match s.rdPhase with
  | .idle => .refused .noReadInProgress
  | .wait => .next (readWait s)
  | .mask => .next (readMask s)
  | .copy =>
    match s.cfg.copyGranularity with
    | .byte => if s.inRegion s.rdK then .next (readCopyByte s) else .fault .slotOffset
    | .frame => .next (readCopyFrame s)
  | .resample => .next (readResample s)
  | .unmask => .next (readUnmask s)

/-- AVAILABLE, 0x41 (R190): one read of RDY, no state changed. -/
def execAvailable (s : State) : Host.Outcome State Fault Refusal :=
  .next (s.answer { byteCount := some (byteCountOf s.cfg.regionSize s.rdy) })

/-- The engine stores a byte (R195): write at WIDX, then advance; at the end of the region wrap to 0 and set TC in
the same step. -/
def State.engineStore (s : State) (b : Byte) : State :=
  if s.widx + 1 = s.cfg.regionSize then
    { (s.putSlot s.widx b).setTc true with widx := 0 }
  else { s.putSlot s.widx b with widx := s.widx + 1 }

/-- ENG_BYTE, 0x80 (R195, R196). -/
def execEngByte (s : State) : Host.Outcome State Fault Refusal :=
  if s.inRegion s.widx then .next (s.engineStore s.ports.lineByte) else .fault .slotOffset

/-- ENG_ERROR, 0x81 (R197): TE is set, nothing else changes. -/
def execEngError (s : State) : Host.Outcome State Fault Refusal := .next (s.setTe true)

/-- HANDLER, 0x82 (R198, R199, R219, R220): a step exactly when it is enabled; its body is the completion signal's
service, and its return restores nothing. -/
def execHandler (s : State) : Host.Outcome State Fault Refusal :=
  if s.handlerEnabled then .next (s.takeCompletionSignal).returnFromHandler else .refused .handlerNotEnabled

/-- RESET, 0x8F (R240, R39): SLOT's bytes are drawn anew (nothing is listed, a new epoch), the ports hold nothing.
The configuration (R21), the host's variables and the environment's script are not CORE's to reset. -/
def execReset (s : State) : Host.Outcome State Fault Refusal :=
  .next { s with
    rdy := .idle
    tc := false
    te := false
    im := false
    widx := 0
    slot := []
    slotEpoch := s.slotEpoch + 1
    rdPhase := .idle
    rdK := 0
    rx := []
    serPhase := .idle
    serPb := []
    serDigest := 0
    serW1 := 0
    sinkLog := []
    ports := emptyPorts s.cfg.toParams
    res := {} }

end Sys2Proof.Machine
end

