-- ==== Sys2Proof/Machine/Dispatch.lean ====
section
/-! DEFINITION. exec: one arm per operation of R92, each one call of that operation's meaning. -/

namespace Sys2Proof.Machine

def exec (i : Instr) (s : State) : Host.Outcome State Fault Refusal :=
  match i with
  | .validate => Sys2Proof.Machine.execValidate s
  | .normalize => Sys2Proof.Machine.execNormalize s
  | .denormalize => Sys2Proof.Machine.execDenormalize s
  | .pack => Sys2Proof.Machine.execPack s
  | .unpack => Sys2Proof.Machine.execUnpack s
  | .calculate => Sys2Proof.Machine.execCalc s
  | .calcHwcrc => Sys2Proof.Machine.execCalcHwcrc s
  | .calcCrc8 => Sys2Proof.Machine.execCalcCrc8 s
  | .calcSum => Sys2Proof.Machine.execCalcSum s
  | .serialize => Sys2Proof.Machine.execSerialize s
  | .deserialize => Sys2Proof.Machine.execDeserialize s
  | .read => Sys2Proof.Machine.execRead s
  | .available => Sys2Proof.Machine.execAvailable s
  | .engByte => Sys2Proof.Machine.execEngByte s
  | .engError => Sys2Proof.Machine.execEngError s
  | .handler => Sys2Proof.Machine.execHandler s
  | .sinkWrite => Sys2Proof.Machine.execSinkWrite s
  | .reset => Sys2Proof.Machine.execReset s

end Sys2Proof.Machine
end

