-- ==== Sys2Proof/Machine/Sequencer.lean ====
section
/-! DEFINITION. What one line of the total order does (R65, R92, R94, R96), what it takes to place an operation so
that it is the next step, the pseudo-operations of R97, and the cause labels of R212. -/

namespace Sys2Proof.Machine

/-- HOST presents a code and operands on the command port (R72, R92). An unassigned code and an event's code are
refused (R94); HOST waits for the result of the operation in progress before it issues another (R20). -/
def runCommand (code : Byte) (args : Args) (s : State) : Host.Outcome State Fault Refusal :=
  match decodeCode code with
  | none => .refused .unassignedCode
  | some i =>
    if i.isEvent then .refused .eventCodeFromHost
    else if s.hostBusy then .refused .hostBusy
    else
      match loadOperands i args s with
      | .error e => .refused e
      | .ok p => exec i { s with ports := p }

/-- An agent's event happens, with the input the environment chose (R92, R195, R163). -/
def runEvent (code : Byte) (input : EnvInput) (s : State) : Host.Outcome State Fault Refusal :=
  match decodeCode code with
  | none => .refused .unassignedCode
  | some i =>
    if i.isEvent then
      match loadInput i input s with
      | .error e => .refused e
      | .ok p => exec i { s with ports := p }
    else .refused .commandCodeFromAgent

/-- What the agent of a line does in its step (R65, R96). -/
def takeTurn (line : ScriptLine) (s : State) : Host.Outcome State Fault Refusal :=
  match line with
  | .command code args => runCommand code args s
  | .readStep => readStep s
  | .event code input => runEvent code input s

/-- One line of the script is one step of the total order (R65, R96); when it ends, the ports hold nothing (R24). -/
def runLine (line : ScriptLine) (s : State) : Host.Outcome State Fault Refusal := endStep (takeTurn line s)

/-- The next line of the total order and the state without it: the script's head, or, when the script is empty, a
line of the free environment (log 4). -/
def nextLine (s : State) : ScriptLine × State :=
  match s.script with
  | line :: rest => (line, { s with script := rest })
  | [] => (Config.envLine s.drawn, { s with drawn := s.drawn + 1 })

/-- The step of the machine: take the next line, run it. -/
def takeLine (s : State) : Host.Outcome State Fault Refusal := runLine (nextLine s).1 (nextLine s).2

/-- A script run from a state, line after line, stopping at the first fault or refusal (R96). -/
def runLines : List ScriptLine → State → Host.Outcome State Fault Refusal
  | [], s => .next s
  | line :: rest, s =>
    match runLine line s with
    | .next t => runLines rest t
    | .fault f => .fault f
    | .refused r => .refused r

/-- Operands of each shape written out, the values the empty ports hold (log 5). -/
def placedArgs (p : Params) : Shape → Args
  | .none => .none
  | .candidate => .candidate (emptyPorts p).candidate
  | .v => .v (.lit 0)
  | .code => .code (.lit 0)
  | .values => .values (.lit (emptyPorts p).values)
  | .pb => .pb (.lit (emptyPorts p).pb)
  | .buffer => .buffer (.lit []) (.lit 0)
  | .expected => .expected (.lit 0)
  | .lineByte => .none
  | .sinkCount => .none

/-- The environment's input of each shape, written out (log 5). -/
def placedInput : Shape → EnvInput
  | .lineByte => .lineByte 0
  | .sinkCount => .sinkCount 0
  | .none | .candidate | .v | .code | .values | .pb | .buffer | .expected => .none

/-- What it takes for an agent event to be the next step (log 5): HANDLER's request raised and unmasked (R198); a
SERIALIZE in progress for SINK_WRITE, of the values the empty ports hold if none is (R160, R163); nothing for the
others. -/
def readyForEvent (i : Instr) (s : State) : State :=
  match i with
  | .handler => { s with im := false, tc := s.tc || !s.te }
  | .sinkWrite =>
    match s.serPhase with
    | .idle => s.endRead.closePorts.startSerialize
    | .writePayload => s
    | .writeDigest => s
  | .validate | .normalize | .denormalize | .pack | .unpack | .calculate | .calcHwcrc | .calcCrc8 | .calcSum
  | .serialize | .deserialize | .read | .available | .engByte | .engError | .reset => s

/-- Place the operation with a code so that the very next step runs it (log 5): a host command on the command
port with HOST idle, an agent event with what enables it, with operands written out. A code that selects nothing is
placed as it is. -/
def placeCode (code : Byte) (s : State) : State :=
  match decodeCode code with
  | none => { s with script := .command code .none :: s.script }
  | some i =>
    if i.isEvent then
      { readyForEvent i s with script := .event code (placedInput i.shape) :: s.script }
    else
      { s.endRead.endSerialize with script := .command code (placedArgs s.cfg.toParams i.shape) :: s.script }

/-- `LINE: FEED b0 … bm` (R97): ENG_BYTE of each byte in order, no other step between. -/
def feed (bytes : List Byte) : List ScriptLine :=
  bytes.map fun b => .event (encodeCode .engByte) (.lineByte b)

/-- `SEND values` (R97). -/
def send (values : Src (List Nat)) : List ScriptLine := [.command (encodeCode .serialize) (.values values)]

/-- `SINK: SINK_WRITE -> w` (R96). -/
def sinkAnswers (w : Nat) : ScriptLine := .event (encodeCode .sinkWrite) (.sinkCount w)

/-- `HANDLER: HANDLER` (R96). -/
def handlerRuns : ScriptLine := .event (encodeCode .handler) .none

/-- The lines of a READ of the region's size: its issue, then HOST's steps: `waits` wait steps that find RDY idle and
the one that finds it full, the mask step, the copy steps, the resample and the unmask (R184 to R189). -/
def readLines (p : Params) (waits : Nat) : List ScriptLine :=
  .command (encodeCode .read) (.expected (.lit p.regionSize)) ::
    List.replicate
      (waits + 2 + (match p.copyGranularity with | .byte => p.regionSize | .frame => 1) + 2) .readStep

/-- `(vals, ok) = RECEIVE` (R97): `READ FRAME_SIZE`, then DESERIALIZE of what it returned. -/
def receive (p : Params) (waits : Nat) : List ScriptLine :=
  readLines p waits ++ [.command (encodeCode .deserialize) (.buffer (.kept 0) (.kept 0))]

/-- The VALIDATE causes a `cfgerr` reports (R105, R212). -/
def cfgCauses (e : BitVec 5) : List Cause :=
  (if e.getLsbD 0 then [.ceSigned] else []) ++ (if e.getLsbD 1 then [.ceOrder] else []) ++
  (if e.getLsbD 2 then [.ceCount] else []) ++ (if e.getLsbD 3 then [.ceWidth] else []) ++
  (if e.getLsbD 4 then [.ceCapacity] else [])

/-- The causes of R212's table an operation has in a state; no host sees them, VALIDATE's excepted (log 34). -/
def causesOf (i : Instr) (s : State) : List Cause :=
  match i with
  | .validate => cfgCauses (validate s.cfg.rangeCapWidth s.ports.candidate)
  | .normalize => []
  | .denormalize => []
  | .pack => []
  | .unpack => []
  | .calculate => []
  | .calcHwcrc => []
  | .calcCrc8 => []
  | .calcSum => []
  | .serialize => []
  | .deserialize =>
    match deserialize s.cfg.toParams s.ports.bytes s.ports.length with
    | .ok _ => []
    | .error c => [c]
  | .read => if s.ports.expectedLength ≠ s.cfg.regionSize then [.lengthMismatch] else []
  | .available => []
  | .engByte => []
  | .engError => []
  | .handler => if s.handlerEnabled && s.te then [.transferError] else []
  | .sinkWrite =>
    match s.writePresented with
    | none => []
    | some (_, len) => if s.ports.sinkCount < len then [.shortWrite] else []
  | .reset => []

end Sys2Proof.Machine
end

