-- ==== Sys2Proof/Machine/Step.lean ====
section
/-! DEFINITION. The step of the machine: one line of the total order (R65), and how the host places one operation
to run next. -/

namespace Sys2Proof.Machine

/-- One step of whichever agent the environment lets move next (R65). -/
def step (s : State) : Host.Outcome State Fault Refusal := takeLine s

/-- The state with the operation of opcode-table word `w` placed as the very next step (log 5). -/
def State.withFetchWord (s : State) (nbits w : Nat) : State := placeCode (tableCode nbits w) s

end Sys2Proof.Machine
end

