-- ==== Sys2Proof/Safety.lean ====
section
/-! DEFINITION. The words the claims use: the invariant of every reachable state (R202, R26, R58), which lines are
which agent's, and the premise P_TIMELY of R66. -/

namespace Sys2Proof.Machine

/-- Has ENGINE written this offset of SLOT since reset? -/
def State.written (s : State) (x : Nat) : Bool := (Mem.lookup s.slot x).isSome

/-- What the host keeps of an operation holds values of its ports' types (R24, R26): RawData is N values of ELEM_WIDTH bits, a
PackedBuffer PACKED_SIZE bytes, `bytesRead` and `byteCount` 0 or REGION_SIZE, `rx` REGION_SIZE bytes; and none of it is
SINK_WRITE's count, which no host operation returns (R92, R218). -/
def Results.fit (p : Params) (r : Results) : Prop :=
  (∀ vs, r.values = some vs → fitsValues p vs = true) ∧
  (∀ b, r.pb = some b → b.length = p.packedSize) ∧
  (∀ n, r.bytesRead = some n → n = 0 ∨ n = p.regionSize) ∧
  (∀ n, r.byteCount = some n → n = 0 ∨ n = p.regionSize) ∧
  (∀ b, r.rx = some b → b.length = p.regionSize) ∧
  r.bytesWritten = none

/-- What every reachable state satisfies. -/
structure Inv (s : State) : Prop where
  /-- SLOT is in canonical form -/
  slotCanonical : Mem.wf s.slot = true
  /-- and lists no offset outside the region (R50) -/
  slotInRegion : ∀ x, s.written x = true → x < s.cfg.regionSize
  /-- R202 (a) -/
  indexInRegion : s.widx < s.cfg.regionSize
  /-- the bytes of the period under way are in SLOT (R195) -/
  periodStored : ∀ x, x < s.widx → s.written x = true
  /-- R202 (c), R206: once a completion is signalled, ENGINE has written the whole region -/
  regionStored : s.tc = true ∨ s.rdy = .full → ∀ x, x < s.cfg.regionSize → s.written x = true
  /-- R202 (b) -/
  maskedExactly : s.im = true ↔ s.rdPhase = .copy ∨ s.rdPhase = .resample ∨ s.rdPhase = .unmask
  /-- R185: RDY is still full when the mask is set, and only the resample changes it -/
  fullWhileReading : s.rdPhase = .mask ∨ s.rdPhase = .copy ∨ s.rdPhase = .resample → s.rdy = .full
  /-- R25: at most one operation is in progress -/
  oneOperation : s.rdPhase = .idle ∨ s.serPhase = .idle
  /-- R34: RD_K and rx are not state before the copy -/
  notCopying : s.rdPhase = .idle ∨ s.rdPhase = .wait ∨ s.rdPhase = .mask → s.rdK = 0 ∧ s.rx = []
  /-- R186 -/
  copying : s.rdPhase = .copy → s.rdK < s.cfg.regionSize ∧ s.rx.length = s.rdK
  /-- R186 -/
  copied : s.rdPhase = .resample ∨ s.rdPhase = .unmask →
    s.rdK = s.cfg.regionSize ∧ s.rx.length = s.cfg.regionSize
  /-- R25 -/
  notSerializing : s.serPhase = .idle → s.serPb = [] ∧ s.serDigest = 0
  /-- R160, step S1: a payload of PACKED_SIZE bytes and its digest -/
  serializing : s.serPhase ≠ .idle →
    s.serPb.length = s.cfg.packedSize ∧ s.serDigest = calculate s.cfg.toParams s.serPb
  /-- R160, R162: the first count is held only until the digest write, and is short only if the digest is always
  written -/
  firstCount : (s.serPhase ≠ .writeDigest → s.serW1 = 0) ∧
    (s.serPhase = .writeDigest →
      s.serW1 ≤ s.cfg.packedSize ∧ (s.cfg.digestAfterShort = .never → s.serW1 = s.cfg.packedSize))
  /-- R24: between two steps no port holds anything -/
  portsEmpty : s.ports = emptyPorts s.cfg.toParams ∧ s.res = {}
  /-- R24, R26, R218 -/
  keptTyped : ∀ r, r ∈ s.hostVars → r.fit s.cfg.toParams

/-- The line is an event line of the given event. -/
def isEventOf (i : Instr) : ScriptLine → Bool
  | .command _ _ => false
  | .readStep => false
  | .event code _ => decodeCode code == some i

/-- The line takes no ENG_BYTE step and no RESET: what P_TIMELY asks of the lines between a completion and the
end of the copy (R66; a RESET is no step of a run, R240). -/
def leavesSlot (line : ScriptLine) : Bool :=
  !isEventOf .engByte line && !isEventOf .reset line

/-- P_TIMELY (R66): "no ENG_BYTE step occurs between the ENG_BYTE step that set `TC` for the period being read and
the last copy step of the READ that reads it". A premise of claims, never part of the step. -/
def timely (lines : List ScriptLine) : Bool := lines.all leavesSlot

/-- A line that may stand inside a READ in progress: HOST's own next step, or a step of HANDLER or ENGINE. -/
def duringRead (line : ScriptLine) : Bool :=
  decide (line = .readStep) || isEventOf .handler line || isEventOf .engByte line || isEventOf .engError line

end Sys2Proof.Machine
end

