-- ==== Sys2Proof/Certificates/Slice0/Obligations.lean ====
section
/-! DEFINITION. The statements about HelloStm32 CORE, from the numbered rules of spec/. `s`, `t`, `u` are states; a
statement that gives the next state as `{ s with … }` thereby states the instruction's frame: every field it does
not name is unchanged, SLOT's bytes among them. -/

open Sys2Proof Sys2Proof.Machine

/-! ## Configuration Validator -/

/-- R105 (the bit numbers are the spec's decision D16, log 29): VALIDATE completes in every state, reports each
cause that holds by its own bit, and changes nothing but the result ports and what the host keeps. -/
def Obligations.ValidateReportsEveryCause : Prop :=
  ∀ s : State, ∃ e : BitVec 5,
    exec .validate s = .next { s with res := { cfgerr := some e }, hostVars := { cfgerr := some e } :: s.hostVars } ∧
    (e.getLsbD 0 = true ↔ s.ports.candidate.elemSigned = true) ∧
    (e.getLsbD 1 = true ↔ s.ports.candidate.maximum < s.ports.candidate.minimal) ∧
    (e.getLsbD 2 = true ↔ s.ports.candidate.n = 0) ∧
    (e.getLsbD 3 = true ↔ s.ports.candidate.minimal ≤ s.ports.candidate.maximum ∧
      s.ports.candidate.elemWidth < bitlen (s.ports.candidate.maximum - s.ports.candidate.minimal)) ∧
    (e.getLsbD 4 = true ↔ s.cfg.rangeCapWidth < s.ports.candidate.elemWidth ∨ s.ports.candidate.hashSel = 3)

/-- R106 (derived in the spec): `CE_WIDTH` is never set for a candidate whose bounds are fields of its own element
width. -/
def Obligations.WidthCauseIsUnreachable : Prop :=
  ∀ (cap : Nat) (c : Candidate), c.fits = true → (validate cap c).getLsbD 3 = false

/-- R103, R104: the mask, and the sizes of every instance; the reference instance's. -/
def Obligations.DerivedSizesFollowFromBitWidth : Prop :=
  (∀ c : Config,
    c.mask = 2 ^ c.bitWidth - 1 ∧ (c.bitWidth = 0 → c.mask = 0) ∧ c.range ≤ c.mask ∧
    c.packedSize = (c.n * c.bitWidth + 7) / 8 ∧ c.digestSize = 1 ∧ c.frameSize = c.packedSize + c.digestSize ∧
    c.regionSize = c.frameSize ∧ (c.packedSize = 0 ↔ c.bitWidth = 0)) ∧
  Config.reference.n * Config.reference.bitWidth = 40 ∧ Config.reference.packedSize = 5 ∧
  Config.reference.frameSize = 6

/-- R102 (its value for RANGE = 0 is the spec's decision D6, log 15): BITWIDTH counts the bits of RANGE, and never
exceeds the element width. -/
def Obligations.BitWidthCountsTheBitsOfRange : Prop :=
  ∀ c : Config,
    (c.range = 0 → c.bitWidth = 0) ∧
    (1 ≤ c.range → 2 ^ (c.bitWidth - 1) ≤ c.range ∧ c.range < 2 ^ c.bitWidth) ∧
    c.bitWidth ≤ c.elemWidth

/-- R107: NORMALIZE completes in every state with the clamped value less MINIMAL, a code that fits in BITWIDTH bits,
and changes nothing else. -/
def Obligations.NormalizeClampsAndSubtracts : Prop :=
  (∀ s : State, ∃ c : Nat,
    exec .normalize s = .next { s with res := { code := some c }, hostVars := { code := some c } :: s.hostVars } ∧
    c = (if s.ports.v < s.cfg.minimal then s.cfg.minimal
         else if s.ports.v > s.cfg.maximum then s.cfg.maximum else s.ports.v) - s.cfg.minimal ∧
    c ≤ s.cfg.range ∧ c < 2 ^ s.cfg.bitWidth) ∧
  normalizeValue Config.reference.toParams 1500 = 1000 ∧ normalizeValue Config.reference.toParams 42 = 42 ∧
  (∀ p : Params, p.minimal = 5 → p.maximum = 12 → normalizeValue p 9 = 4 ∧ normalizeValue p 0 = 0 ∧ normalizeValue p 255 = 7)

/-- R108 (the wrap at the top of the element type is the spec's decision D14, log 16): DENORMALIZE completes for
every code; code bits from BITWIDTH up are discarded, MINIMAL is added, the sum wraps modulo 2^ELEM_WIDTH. -/
def Obligations.DenormalizeMasksAddsAndWraps : Prop :=
  ∀ s : State, ∃ v : Nat,
    exec .denormalize s = .next { s with res := { v := some v }, hostVars := { v := some v } :: s.hostVars } ∧
    v = (s.ports.code % 2 ^ s.cfg.bitWidth + s.cfg.minimal) % 2 ^ s.cfg.elemWidth ∧ v < 2 ^ s.cfg.elemWidth

/-- R109: `denormalize(normalize(v)) == clamp(v, minimal, maximum)` for every v of every instance. -/
def Obligations.DenormalizeOfNormalizeIsClamp : Prop :=
  ∀ (c : Config) (v : Nat),
    denormalizeCode c.toParams (normalizeValue c.toParams v) = clampTo c.minimal c.maximum v

/-! ## Bit-Packing Codec -/

/-- R120: PACK completes whenever N values stand on its port: PACKED_SIZE bytes, code bit k of element i at global
bit i·BITWIDTH + k, every other bit 0; the same number as the little-endian sum; nothing else changes. -/
def Obligations.PackWritesEveryField : Prop :=
  (∀ s : State, s.ports.values.length = s.cfg.n → ∃ pb : List Byte,
    exec .pack s = .next { s with res := { pb := some pb }, hostVars := { pb := some pb } :: s.hostVars } ∧
    pb.length = s.cfg.packedSize ∧
    (∀ i k, i < s.cfg.n → k < s.cfg.bitWidth →
      bufBit pb (i * s.cfg.bitWidth + k) = (normalizeValue s.cfg.toParams (s.ports.values.getD i 0)).testBit k) ∧
    (∀ g, s.cfg.n * s.cfg.bitWidth ≤ g → bufBit pb g = false) ∧
    natOfBytes pb = ∑ i ∈ Finset.range s.cfg.n,
      normalizeValue s.cfg.toParams (s.ports.values.getD i 0) * 2 ^ (i * s.cfg.bitWidth)) ∧
  pack Config.reference.toParams [0, 999, 500, 42] = [0x00, 0x9C, 0x4F, 0x9F, 0x0A]

/-- R124: UNPACK completes whenever a PackedBuffer stands on its port: N values, each DENORMALIZE of the BITWIDTH bits
of its field, the same as the quotient and remainder of the little-endian number; nothing else changes. -/
def Obligations.UnpackReadsEveryField : Prop :=
  (∀ s : State, s.ports.pb.length = s.cfg.packedSize → ∃ vs : List Nat,
    exec .unpack s = .next { s with res := { values := some vs }, hostVars := { values := some vs } :: s.hostVars } ∧
    vs.length = s.cfg.n ∧
    ∀ i, i < s.cfg.n → ∃ raw : Nat,
      vs[i]? = some (denormalizeCode s.cfg.toParams raw) ∧
      (∀ k, k < s.cfg.bitWidth → raw.testBit k = bufBit s.ports.pb (i * s.cfg.bitWidth + k)) ∧
      raw = natOfBytes s.ports.pb / 2 ^ (i * s.cfg.bitWidth) % 2 ^ s.cfg.bitWidth) ∧
  unpack Config.reference.toParams [0x00, 0x9C, 0x4F, 0x9F, 0x0A] = [0, 999, 500, 42]

/-- R127, R128: PACK of any N values and UNPACK of what the host kept gives each value clamped, so the values
themselves when they are in range. -/
def Obligations.UnpackOfPackIsClamp : Prop :=
  (∀ (s : State) (vs : List Nat), s.hostBusy = false → fitsValues s.cfg.toParams vs = true →
    ∃ t : State,
      runLines [.command (encodeCode .pack) (.values (.lit vs)), .command (encodeCode .unpack) (.pb (.kept 0))] s =
        .next t ∧
      t.hostVars[0]? = some { values := some (vs.map (clampTo s.cfg.minimal s.cfg.maximum)) } ∧
      ((∀ v ∈ vs, s.cfg.minimal ≤ v ∧ v ≤ s.cfg.maximum) → t.hostVars[0]? = some { values := some vs })) ∧
  unpack Config.reference.toParams (pack Config.reference.toParams [10, 1500, 2000, 1001]) = [10, 1000, 1000, 1000]

/-- R125 (derived in the spec): two buffers that agree on the field bits unpack to the same values; the padding bits
and everything past them are not read. -/
def Obligations.UnpackIgnoresPadding : Prop :=
  ∀ (p : Params) (pb pb' : List Byte),
    (∀ g, g < p.n * p.bitWidth → bufBit pb g = bufBit pb' g) → unpack p pb = unpack p pb'

/-- R129 (derived in the spec): changing one element changes bits of its own field only. -/
def Obligations.PackFieldsAreIndependent : Prop :=
  ∀ (c : Config) (vs : List Nat) (i v : Nat), vs.length = c.n → i < c.n →
    (∀ g, g < i * c.bitWidth ∨ (i + 1) * c.bitWidth ≤ g →
      bufBit (pack c.toParams (vs.set i v)) g = bufBit (pack c.toParams vs) g) ∧
    (∀ k, k < c.bitWidth →
      bufBit (pack c.toParams (vs.set i v)) (i * c.bitWidth + k) = (normalizeValue c.toParams v).testBit k)

/-- R130, R171 (the spec's decision D6, log 15): with MINIMAL = MAXIMUM the PackedBuffer is empty, UNPACK returns N
copies of MINIMAL, and DESERIALIZE succeeds exactly when the one byte is the digest of nothing. -/
def Obligations.ZeroWidthFrameIsTheDigestAlone : Prop :=
  ∀ c : Config, c.minimal = c.maximum →
    c.frameSize = 1 ∧ (∀ vs, pack c.toParams vs = []) ∧ unpack c.toParams [] = List.replicate c.n c.minimal ∧
    (∀ (b : Byte) (rest : List Byte) (length : Nat), 1 ≤ length →
      (b = calculate c.toParams [] →
        deserialize c.toParams (b :: rest) length = .ok (List.replicate c.n c.minimal)) ∧
      (b ≠ calculate c.toParams [] → deserialize c.toParams (b :: rest) length = .error .digestMismatch)) ∧
    (c.hashSel = .crc8 ∨ c.hashSel = .sum → calculate c.toParams [] = 0x00) ∧
    (c.hashSel = .hwcrc → c.hwCrc = .reference → calculate c.toParams [] = 0xFF)

/-! ## Integrity Hasher -/

/-- R141: CALC completes on every buffer with the digest of the variant HASH_SEL names, over the stated length, and
changes nothing else. -/
def Obligations.CalcRunsTheSelectedVariant : Prop :=
  (∀ s : State, ∃ d : Byte,
    exec .calculate s = .next { s with res := { digest := some d }, hostVars := { digest := some d } :: s.hostVars } ∧
    (s.cfg.hashSel = .hwcrc → d = hwCrc s.cfg.hwCrc (s.ports.bytes.take s.ports.length)) ∧
    (s.cfg.hashSel = .crc8 → d = crc8 s.cfg.crc8Poly (s.ports.bytes.take s.ports.length)) ∧
    (s.cfg.hashSel = .sum → d = sum8 (s.ports.bytes.take s.ports.length))) ∧
  calculate Config.reference.toParams [0x00, 0x9C, 0x4F, 0x9F, 0x0A] = 0x6B

/-- R145 (no final XOR and the register procedure are the spec's decision D9, log 18): CALC.CRC8 completes on every
buffer; the register starts at 0 and takes each byte by eight rounds; leading zero bytes and all-zero buffers give
what they must; nothing else changes. -/
def Obligations.CalcCrc8ShiftsEachByteIn : Prop :=
  (∀ s : State, ∃ d : Byte, d = crc8 s.cfg.crc8Poly (s.ports.bytes.take s.ports.length) ∧
    exec .calcCrc8 s =
      .next { s with res := { digest := some d }, hostVars := { digest := some d } :: s.hostVars }) ∧
  (∀ poly : Byte, crc8 poly [] = 0) ∧
  (∀ (poly : Byte) (x : List Byte) (b : Byte),
    crc8 poly (x ++ [b]) = rounds (fun c => if c.getLsbD 7 then (c <<< 1) ^^^ poly else c <<< 1) 8 (crc8 poly x ^^^ b)) ∧
  (∀ (poly : Byte) (x : List Byte) (k : Nat), crc8 poly (List.replicate k 0x00 ++ x) = crc8 poly x) ∧
  crc8 0x07 [0x31, 0x32, 0x33, 0x34, 0x35, 0x36, 0x37, 0x38, 0x39] = 0xF4

/-- R148 (start 0 and modulus 256 are the spec's decision D11, log 19): CALC.SUM completes on every buffer with the sum
of its bytes modulo 256, so any reordering gives the same digest; nothing else changes. -/
def Obligations.CalcSumAddsModulo256 : Prop :=
  (∀ s : State, ∃ d : Byte,
    exec .calcSum s = .next { s with res := { digest := some d }, hostVars := { digest := some d } :: s.hostVars } ∧
    d.toNat = ((s.ports.bytes.take s.ports.length).map BitVec.toNat).sum % 256) ∧
  (∀ x y : List Byte, x.Perm y → sum8 x = sum8 y)

/-- R143, R144 (the unit's numbers are the spec's decision D10, log 2): CALC.HWCRC completes on every buffer; a
remainder is folded in as if padded with zero bytes to a whole word, for the reference unit and for any platform's;
the reference unit gives the spec's check values. -/
def Obligations.CalcHwcrcFoldsZeroPaddedWords : Prop :=
  (∀ s : State, ∃ d : Byte, d = hwCrc s.cfg.hwCrc (s.ports.bytes.take s.ports.length) ∧
    exec .calcHwcrc s =
      .next { s with res := { digest := some d }, hostVars := { digest := some d } :: s.hostVars }) ∧
  (∀ (u : HwCrcUnit) (x : List Byte) (w k : Nat),
    (u = .reference → w = 4) → (u = .platform → w = Config.platformWordBytesPred + 1) →
    0 < x.length % w → k = w - x.length % w →
    hwCrc u (x ++ List.replicate k 0x00) = hwCrc u x) ∧
  hwCrc .platform [] = Config.platformFinal Config.platformInit ∧
  hwStep 0xFFFFFFFF 0 = 0xC704DD7B ∧
  hwStep (hwStep 0xFFFFFFFF 0x9F4F9C00) 0x0000000A = 0x69C06083 ∧
  hwCrc .reference [0x00, 0x9C, 0x4F, 0x9F, 0x0A] = 0x83

/-- R150: the digest is the same in every state with the same configuration and the same bytes, for each of the four
hasher operations. -/
def Obligations.HashersAreDeterministic : Prop :=
  ∀ (i : Instr) (s t : State), i = .calculate ∨ i = .calcHwcrc ∨ i = .calcCrc8 ∨ i = .calcSum →
    s.cfg = t.cfg → s.ports.bytes.take s.ports.length = t.ports.bytes.take t.ports.length →
    ∃ d : Byte,
      exec i s = .next { s with res := { digest := some d }, hostVars := { digest := some d } :: s.hostVars } ∧
      exec i t = .next { t with res := { digest := some d }, hostVars := { digest := some d } :: t.hostVars }

/-- R151 (derived in the spec): changing exactly one byte of a buffer changes the SUM digest, and the CRC8 digest for
every odd polynomial. -/
def Obligations.SingleByteChangeChangesTheDigest : Prop :=
  ∀ (x y : List Byte) (b b' : Byte), b ≠ b' →
    sum8 (x ++ b :: y) ≠ sum8 (x ++ b' :: y) ∧
    ∀ poly : Byte, poly.getLsbD 0 = true → crc8 poly (x ++ b :: y) ≠ crc8 poly (x ++ b' :: y)

/-- R147 (derived in the spec): the two buffers of the source's test collide exactly for the seven excluded
polynomials. -/
def Obligations.TestBuffersCollideForSevenPolynomials : Prop :=
  ∀ poly : Byte,
    crc8 poly [0x31, 0x32, 0x33, 0x34, 0x35] = crc8 poly [0x72, 0xDF, 0x80, 0x1A, 0x3B] ↔
      poly ∈ [0x00#8, 0x3C#8, 0x60#8, 0x88#8, 0x90#8, 0xC0#8, 0xC6#8]

/-! ## Frame Serializer -/

/-- R160 step S1, R161: SERIALIZE completes its step whenever no operation is in progress: the PackedBuffer, then its
digest, before any byte is written. The model's choices: the refusal while HOST is busy (log 13); where pb and d are
held, and the first count held as 0 until there is one (log 33). That the result ports hold nothing while there is no
result is R24's. -/
def Obligations.SerializeComputesBeforeAnyWrite : Prop :=
  ∀ s : State,
    (s.rdPhase = .idle → s.serPhase = .idle →
      exec .serialize s = .next { s with
        res := {}
        serPhase := .writePayload
        serPb := pack s.cfg.toParams s.ports.values
        serDigest := calculate s.cfg.toParams (pack s.cfg.toParams s.ports.values)
        serW1 := 0 }) ∧
    (s.rdPhase ≠ .idle ∨ s.serPhase ≠ .idle → exec .serialize s = .refused .hostBusy)

/-- R163, R160 steps S2 and S3, R162 (the accepted prefix and the bound on the count are the spec's decision D17, log 9;
how pb, d and w1 are held is the model's choice, log 33): SINK_WRITE completes for every count the contract allows,
with exactly this next state. After the payload write: the prefix appended; SERIALIZE over with `ok` = 0 if the write
was short and no digest follows a short write; otherwise the digest write next, pb and d kept, the count held. After
the digest write: SERIALIZE over, `ok` only if both counts are the expected ones. It stops by name when no write is
presented or the count is above the length. The host gets `ok` alone (R218); the count stands on SINK_WRITE's port. -/
def Obligations.SinkWriteAppendsTheAcceptedPrefix : Prop :=
  ∀ s : State,
    (s.serPhase = .writePayload → s.ports.sinkCount ≤ s.cfg.packedSize →
      (s.ports.sinkCount ≠ s.cfg.packedSize → s.cfg.digestAfterShort = .never →
        exec .sinkWrite s = .next { s with
          sinkLog := s.sinkLog ++ s.serPb.take s.ports.sinkCount
          serPhase := .idle
          serPb := []
          serDigest := 0
          serW1 := 0
          res := { ok := some false, bytesWritten := some s.ports.sinkCount }
          hostVars := { ok := some false } :: s.hostVars }) ∧
      (s.ports.sinkCount = s.cfg.packedSize ∨ s.cfg.digestAfterShort = .always →
        exec .sinkWrite s = .next { s with
          sinkLog := s.sinkLog ++ s.serPb.take s.ports.sinkCount
          serPhase := .writeDigest
          serW1 := s.ports.sinkCount
          res := { bytesWritten := some s.ports.sinkCount } })) ∧
    (s.serPhase = .writeDigest → s.ports.sinkCount ≤ s.cfg.digestSize → ∃ ok : Bool,
      (ok = true ↔ s.serW1 = s.cfg.packedSize ∧ s.ports.sinkCount = s.cfg.digestSize) ∧
      exec .sinkWrite s = .next { s with
        sinkLog := s.sinkLog ++ [s.serDigest].take s.ports.sinkCount
        serPhase := .idle
        serPb := []
        serDigest := 0
        serW1 := 0
        res := { ok := some ok, bytesWritten := some s.ports.sinkCount }
        hostVars := { ok := some ok } :: s.hostVars }) ∧
    (s.serPhase = .idle → exec .sinkWrite s = .refused .noWritePresented) ∧
    (s.serPhase = .writePayload → s.cfg.packedSize < s.ports.sinkCount →
      exec .sinkWrite s = .refused .sinkOverReport) ∧
    (s.serPhase = .writeDigest → s.cfg.digestSize < s.ports.sinkCount →
      exec .sinkWrite s = .refused .sinkOverReport)

/-- R160: the whole SERIALIZE, for every pair of counts the sink may answer: payload then digest, the early exit after
a short payload write when the digest is never written after it, and `ok`, all that the host gets (R218), true only if
each write reports exactly the expected count; no transport state changes, and the ports hold nothing at the end
(R24). -/
def Obligations.SerializeWritesPayloadThenDigest : Prop :=
  (∀ (s : State) (vs : List Nat) (w1 w2 : Nat), s.hostBusy = false → fitsValues s.cfg.toParams vs = true →
    w1 ≤ s.cfg.packedSize → w2 ≤ 1 →
    (w1 ≠ s.cfg.packedSize → s.cfg.digestAfterShort = .never → ∃ t : State,
      runLines (send (.lit vs) ++ [sinkAnswers w1]) s = .next t ∧
      t.sinkLog = s.sinkLog ++ (pack s.cfg.toParams vs).take w1 ∧ t.serPhase = .idle ∧
      t.hostVars = { ok := some false } :: s.hostVars ∧
      t = { s with ports := emptyPorts s.cfg.toParams, res := {}, sinkLog := t.sinkLog, hostVars := t.hostVars,
                   serPhase := t.serPhase, serPb := t.serPb, serDigest := t.serDigest, serW1 := t.serW1 }) ∧
    (w1 = s.cfg.packedSize ∨ s.cfg.digestAfterShort = .always → ∃ t : State,
      runLines (send (.lit vs) ++ [sinkAnswers w1, sinkAnswers w2]) s = .next t ∧
      t.sinkLog = s.sinkLog ++ (pack s.cfg.toParams vs).take w1 ++
        [calculate s.cfg.toParams (pack s.cfg.toParams vs)].take w2 ∧ t.serPhase = .idle ∧
      t.hostVars = { ok := some (decide (w1 = s.cfg.packedSize ∧ w2 = 1)) } :: s.hostVars ∧
      t = { s with ports := emptyPorts s.cfg.toParams, res := {}, sinkLog := t.sinkLog, hostVars := t.hostVars,
                   serPhase := t.serPhase, serPb := t.serPb, serDigest := t.serDigest, serW1 := t.serW1 })) ∧
  pack Config.reference.toParams [0, 999, 500, 42] ++
    [calculate Config.reference.toParams (pack Config.reference.toParams [0, 999, 500, 42])] =
    [0x00, 0x9C, 0x4F, 0x9F, 0x0A, 0x6B]

/-- R36, R164 ("sink is append-only"): no step but a RESET (R240) removes or changes a byte of SINKLOG. -/
def Obligations.SinkIsAppendOnly : Prop :=
  ∀ s t : State, step s = .next t → isEventOf .reset (nextLine s).1 = false → s.sinkLog <+: t.sinkLog

/-- R165, R168: DESERIALIZE completes on every buffer: too short, it fails; otherwise the digest of the payload is
compared with the byte after it, and only on a match are values unpacked; a failure carries no value. Nothing else
changes. -/
def Obligations.DeserializeChecksBeforeUnpacking : Prop :=
  (∀ s : State, s.ports.length ≤ s.ports.bytes.length → ∃ r : Results,
    exec .deserialize s = .next { s with res := r, hostVars := r :: s.hostVars } ∧
    (s.ports.length < s.cfg.frameSize → r = { ok := some false }) ∧
    ∀ received : Byte, s.cfg.frameSize ≤ s.ports.length → s.ports.bytes[s.cfg.packedSize]? = some received →
      (calculate s.cfg.toParams (s.ports.bytes.take s.cfg.packedSize) ≠ received → r = { ok := some false }) ∧
      (calculate s.cfg.toParams (s.ports.bytes.take s.cfg.packedSize) = received →
        r = { values := some (unpack s.cfg.toParams (s.ports.bytes.take s.cfg.packedSize)), ok := some true })) ∧
  deserialize Config.reference.toParams [0x00, 0x9C, 0x4F, 0x9F, 0x0A, 0x6B] 6 = .ok [0, 999, 500, 42] ∧
  deserialize Config.reference.toParams [0x00, 0x9C, 0x4F, 0x9F, 0x0A, 0x6A] 6 = .error .digestMismatch ∧
  deserialize Config.reference.toParams [0x00, 0x9C, 0x4F, 0x9F, 0x0A] 5 = .error .shortFrame

/-- R166, R170 (the spec's decision D19, log 21): the result depends on the length and, when that is a whole frame or
more, on the first FRAME_SIZE bytes; on nothing else. -/
def Obligations.DeserializeReadsOnlyTheFrame : Prop :=
  ∀ (p : Params) (bytes bytes' : List Byte) (length : Nat),
    (p.frameSize ≤ length → bytes.take p.frameSize = bytes'.take p.frameSize) →
    deserialize p bytes length = deserialize p bytes' length

/-- R172: when both sink writes are complete, the FRAME_SIZE bytes they appended deserialize to the values clamped,
with `ok = 1`; the source's example. -/
def Obligations.SerializeThenDeserializeIsClamp : Prop :=
  (∀ (s : State) (vs : List Nat), s.hostBusy = false → fitsValues s.cfg.toParams vs = true →
    ∃ (t u : State) (frame : List Byte),
      runLines (send (.lit vs) ++ [sinkAnswers s.cfg.packedSize, sinkAnswers s.cfg.digestSize]) s = .next t ∧
      t.hostVars = { ok := some true } :: s.hostVars ∧
      t.sinkLog = s.sinkLog ++ frame ∧ frame.length = s.cfg.frameSize ∧
      runLine (.command (encodeCode .deserialize) (.buffer (.lit frame) (.lit s.cfg.frameSize))) t = .next u ∧
      u.hostVars =
        { values := some (vs.map (clampTo s.cfg.minimal s.cfg.maximum)), ok := some true } :: t.hostVars) ∧
  deserialize Config.reference.toParams (frameOf Config.reference.toParams [0, 999, 500, 42]) 6 =
    .ok [0, 999, 500, 42]

/-- R169 (the spec's decision D19, log 11): `values` after `ok = 0` is no value. A command line that takes its values
from a result without any is refused by name. -/
def Obligations.AbsentValuesAreNeverUsed : Prop :=
  ∀ (s : State) (k : Nat) (r : Results), s.hostBusy = false → s.hostVars[k]? = some r → r.values = none →
    runLine (.command (encodeCode .pack) (.values (.kept k))) s = .refused .absentResult ∧
    runLine (.command (encodeCode .serialize) (.values (.kept k))) s = .refused .absentResult

/-! ## Transport Buffer -/

/-- R181: READ of any length but the region's returns 0 at once, in every state; no state is read or written, and rx is
not written; 0 is never a success's count. -/
def Obligations.ReadOfAnotherLengthReturnsZero : Prop :=
  ∀ s : State, s.cfg.regionSize ≠ 0 ∧
    (s.ports.expectedLength ≠ s.cfg.regionSize →
      exec .read s =
        .next { s with res := { bytesRead := some 0 }, hostVars := { bytesRead := some 0 } :: s.hostVars })

/-- R182, R183 (the spec's decisions D25, D29, logs 12, 13): READ of the region's length starts whenever no operation
is in progress, whatever RDY and IM are; one issued while another READ is in progress is refused, and so is one issued
while a SERIALIZE is in progress (R20; by that name the model's choice, log 13). -/
def Obligations.ReadStartsItsWait : Prop :=
  ∀ s : State, s.ports.expectedLength = s.cfg.regionSize →
    (s.rdPhase = .idle → s.serPhase = .idle → exec .read s = .next { s with res := {}, rdPhase := .wait }) ∧
    (s.rdPhase ≠ .idle → exec .read s = .refused .readInProgress) ∧
    (s.rdPhase = .idle → s.serPhase ≠ .idle → exec .read s = .refused .hostBusy)

/-- R184: the wait step. With RDY idle it changes nothing, so any number of them leaves the state with its ports empty
(R24): READ blocks, with no timeout and no other exit; with RDY full the mask step is next. -/
def Obligations.ReadWaitsUntilFull : Prop :=
  ∀ s : State, s.rdPhase = .wait →
    (s.rdy = .full → readStep s = .next { s with rdPhase := .mask }) ∧
    (s.rdy = .idle → readStep s = .next s ∧ ∀ k : Nat,
      runLines (List.replicate (k + 1) .readStep) s =
        .next { s with ports := emptyPorts s.cfg.toParams, res := {} })

/-- R185 to R188 (their step structure is the spec's decisions D25, D26, logs 12, 25): the critical section, step by
step: mask, one byte copied (or the whole region when the granularity is a frame), resample, unmask. -/
def Obligations.ReadCriticalSectionStepByStep : Prop :=
  ∀ s : State,
    (s.rdPhase = .mask → readStep s = .next { s with im := true, rdK := 0, rx := [], rdPhase := .copy }) ∧
    (s.rdPhase = .copy → s.cfg.copyGranularity = .byte → s.rdK + 1 < s.cfg.regionSize →
      readStep s = .next { s with rx := s.rx ++ [s.slotByte s.rdK], rdK := s.rdK + 1 }) ∧
    (s.rdPhase = .copy → s.cfg.copyGranularity = .byte → s.rdK + 1 = s.cfg.regionSize →
      readStep s =
        .next { s with rx := s.rx ++ [s.slotByte s.rdK], rdK := s.rdK + 1, rdPhase := .resample }) ∧
    (s.rdPhase = .copy → s.cfg.copyGranularity = .frame →
      readStep s = .next { s with
        rx := (List.range s.cfg.regionSize).map s.slotByte, rdK := s.cfg.regionSize, rdPhase := .resample }) ∧
    (s.rdPhase = .resample → s.tc = false → readStep s = .next { s with rdy := .idle, rdPhase := .unmask }) ∧
    (s.rdPhase = .resample → s.tc = true → readStep s = .next { s with rdy := .full, rdPhase := .unmask }) ∧
    (s.rdPhase = .unmask → readStep s = .next { s with
      im := false, rdPhase := .idle, rdK := 0, rx := []
      res := { bytesRead := some s.cfg.regionSize, rx := some s.rx }
      hostVars := { bytesRead := some s.cfg.regionSize, rx := some s.rx } :: s.hostVars })

/-- R189: the whole READ without another agent's step in between, for either copy granularity: the host has the region
size and the region's bytes in order, RDY becomes what TC says, IM is 0, the ports hold nothing (R24), and nothing else
changes. RD_K and rx are no state once READ is over (R34); that they are held as 0 and empty then is the model's choice
(log 12). -/
def Obligations.UninterruptedReadReturnsTheRegion : Prop :=
  ∀ s : State, s.hostBusy = false → s.rdy = .full →
    runLines (readLines s.cfg.toParams 0) s = .next { s with
      ports := emptyPorts s.cfg.toParams
      res := {}
      rdy := if s.tc then .full else .idle
      im := false
      rdK := 0
      rx := []
      hostVars :=
        { bytesRead := some s.cfg.regionSize, rx := some ((List.range s.cfg.regionSize).map s.slotByte) } ::
          s.hostVars }

/-- R190 (the spec's decision D27, log 26): AVAILABLE completes in every state with the region size exactly when RDY is
full, else 0, and changes no state of CORE. -/
def Obligations.AvailableReportsReadiness : Prop :=
  ∀ s : State, ∃ n : Nat,
    exec .available s = .next { s with res := { byteCount := some n }, hostVars := { byteCount := some n } :: s.hostVars } ∧
    (s.rdy = .full → n = s.cfg.regionSize) ∧ (s.rdy = .idle → n = 0)

/-- R195, R196 (the one-byte step is the spec's decision D23, log 24): ENG_BYTE completes whenever WIDX is an offset of
SLOT: the byte at WIDX is LINE's, every other byte reads as before, WIDX advances or wraps, and TC is set exactly at
the wrap and never cleared; nothing else changes. At an offset outside SLOT it stops by name (log 30). -/
def Obligations.EngineStoresTheByteAtItsIndex : Prop :=
  ∀ s : State,
    (s.widx < s.cfg.regionSize → ∃ t : State,
      exec .engByte s = .next t ∧
      t.slotByte s.widx = s.ports.lineByte ∧
      (∀ x, x ≠ s.widx → t.slotByte x = s.slotByte x) ∧
      (s.widx + 1 = s.cfg.regionSize → t.widx = 0 ∧ t.tc = true) ∧
      (s.widx + 1 < s.cfg.regionSize → t.widx = s.widx + 1 ∧ t.tc = s.tc) ∧
      t = { s with slot := t.slot, widx := t.widx, tc := t.tc }) ∧
    (s.cfg.regionSize ≤ s.widx → exec .engByte s = .fault .slotOffset)

/-- R197 (the spec's decision D24, log 24): ENG_ERROR completes in every state, sets TE and changes nothing else. -/
def Obligations.EngineErrorSetsTheIndicatorOnly : Prop :=
  ∀ s : State, exec .engError s = .next { s with te := true }

/-- R198, R35 (the level request is the spec's decision D21, log 8): HANDLER has a step exactly when IM = 0 and TC or TE
is set. -/
def Obligations.HandlerStepsExactlyWhenRequested : Prop :=
  ∀ s : State,
    ((∃ t, exec .handler s = .next t) ↔ s.im = false ∧ (s.tc = true ∨ s.te = true)) ∧
    (¬(s.im = false ∧ (s.tc = true ∨ s.te = true)) → exec .handler s = .refused .handlerNotEnabled)

/-- R217: the error cause is served first: TE is cleared and nothing else changes (entry and return save and restore
nothing, R219, R220); if TC is set too, the next HANDLER step serves it. -/
def Obligations.HandlerServesTheErrorFirst : Prop :=
  ∀ s : State, s.im = false → s.te = true →
    exec .handler s = .next { s with te := false } ∧
    (s.tc = true →
      exec .handler { s with te := false } = .next { s with te := false, tc := false, rdy := .full })

/-- R199: the completion path: TC is cleared, RDY raised, nothing else changes, and HANDLER is no longer enabled. -/
def Obligations.HandlerRaisesFullOnCompletion : Prop :=
  ∀ s : State, s.im = false → s.te = false → s.tc = true →
    exec .handler s = .next { s with tc := false, rdy := .full } ∧
    exec .handler { s with tc := false, rdy := .full } = .refused .handlerNotEnabled

/-- R240 (its values but RDY's are the spec's decision D28, log 27; that a RESET may come later than at start-up is the
model's choice, log 10): what RESET leaves. SLOT lists no byte of ENGINE's any more; of its bytes nothing is said. -/
def Obligations.ResetLeavesTheStartState : Prop :=
  ∀ s : State, ∃ t : State, exec .reset s = .next t ∧
    t.rdy = .idle ∧ t.tc = false ∧ t.te = false ∧ t.im = false ∧ t.widx = 0 ∧ (∀ x, t.written x = false) ∧
    t.rdPhase = .idle ∧ t.serPhase = .idle ∧ t.sinkLog = [] ∧ t.res = {} ∧
    t.cfg = s.cfg ∧ t.hostVars = s.hostVars ∧ t.script = s.script

/-- R38, R39 (all values but RDY's are the spec's decision D28, log 27): the state right after reset, for every
configuration; `State.reset` is that of the reference configuration (log 1). -/
def Obligations.StateAfterReset : Prop :=
  (∀ c : Config,
    (State.afterReset c).cfg = c ∧ (State.afterReset c).rdy = .idle ∧ (State.afterReset c).tc = false ∧
    (State.afterReset c).te = false ∧ (State.afterReset c).im = false ∧ (State.afterReset c).widx = 0 ∧
    (State.afterReset c).rdPhase = .idle ∧ (State.afterReset c).serPhase = .idle ∧
    (State.afterReset c).sinkLog = [] ∧ (State.afterReset c).res = {}) ∧
  State.reset = State.afterReset Config.reference

/-! ## Whole-machine rules -/

/-- R180, the table of what writes RDY, from every state that meets the invariant: HANDLER raises it on a completion
and leaves it on an error, READ's resample (which finds it full) writes what TC says, RESET clears it, and every other
step leaves it. So idle becomes full in HANDLER only, and full becomes idle in READ's resample (or a RESET) only. -/
def Obligations.ReadinessIsWrittenAsItsTableSays : Prop :=
  ∀ s t : State, Inv s → step s = .next t →
    (isEventOf .handler (nextLine s).1 = true →
      (s.te = false → s.tc = true ∧ t.rdy = .full) ∧ (s.te = true → t.rdy = s.rdy)) ∧
    ((nextLine s).1 = .readStep → s.rdPhase = .resample →
      s.rdy = .full ∧ t.rdy = if s.tc then .full else .idle) ∧
    (isEventOf .reset (nextLine s).1 = true → t.rdy = .idle) ∧
    (isEventOf .handler (nextLine s).1 = false → isEventOf .reset (nextLine s).1 = false →
      ¬((nextLine s).1 = .readStep ∧ s.rdPhase = .resample) → t.rdy = s.rdy)

/-- 10_state.md section 5, R30 to R33: who writes which indicator, in every step that is no RESET; the configuration is
written by none (R8). -/
def Obligations.IndicatorsHaveOneWriterEach : Prop :=
  ∀ s t : State, step s = .next t →
    t.cfg = s.cfg ∧
    (isEventOf .reset (nextLine s).1 = false →
      (s.tc = false → t.tc = true → isEventOf .engByte (nextLine s).1 = true ∧ s.widx + 1 = s.cfg.regionSize) ∧
      (s.tc = true → t.tc = false → isEventOf .handler (nextLine s).1 = true ∧ s.im = false ∧ s.te = false) ∧
      (s.te = false → t.te = true → isEventOf .engError (nextLine s).1 = true) ∧
      (s.te = true → t.te = false → isEventOf .handler (nextLine s).1 = true ∧ s.im = false) ∧
      (s.im = false → t.im = true → (nextLine s).1 = .readStep ∧ s.rdPhase = .mask) ∧
      (s.im = true → t.im = false → (nextLine s).1 = .readStep ∧ s.rdPhase = .unmask) ∧
      (t.widx ≠ s.widx → isEventOf .engByte (nextLine s).1 = true))

/-- R51: a byte of SLOT changes only by an ENG_BYTE, at offset WIDX, or a RESET. -/
def Obligations.SlotIsWrittenByTheEngineOnly : Prop :=
  ∀ (s t : State) (x : Nat), step s = .next t → t.slotByte x ≠ s.slotByte x →
    (isEventOf .engByte (nextLine s).1 = true ∧ x = s.widx) ∨ isEventOf .reset (nextLine s).1 = true

/-- R201: while RDY is idle a READ in its wait blocks, whatever number of its steps is taken (the ports hold nothing
after each, R24); once RDY is full it stays
full through every line that is no step of a READ (and no RESET), and AVAILABLE reports exactly the region size. -/
def Obligations.FullLastsUntilTheNextRead : Prop :=
  (∀ (s : State) (k : Nat), s.rdPhase = .wait → s.rdy = .idle →
    runLines (List.replicate (k + 1) .readStep) s =
      .next { s with ports := emptyPorts s.cfg.toParams, res := {} }) ∧
  (∀ (s t : State) (lines : List ScriptLine), s.rdy = .full →
    (∀ l ∈ lines, l ≠ .readStep ∧ isEventOf .reset l = false) → runLines lines s = .next t →
    t.rdy = .full ∧ ∃ u : State, exec .available t = .next u ∧ u.res.byteCount = some s.cfg.regionSize)

/-- R71, R202 (e): a completion is never forgotten. If TC is set or RDY full, one of them is so after every step but
READ's resample that consumes it (TC = 0), and a RESET. -/
def Obligations.CompletionIsNeverForgotten : Prop :=
  ∀ s t : State, step s = .next t → s.tc = true ∨ s.rdy = .full →
    (t.tc = true ∨ t.rdy = .full) ∨
    ((nextLine s).1 = .readStep ∧ s.rdPhase = .resample ∧ s.tc = false) ∨
    isEventOf .reset (nextLine s).1 = true

/-- The invariant of Safety.lean (R202 (a) to (c), R26, R50) holds right after reset of every instance, the reference
one among them. -/
def Obligations.InvariantHoldsAfterReset : Prop :=
  (∀ c : Config, Inv (State.afterReset c)) ∧ Inv State.reset

/-- Every step keeps the invariant, from every state that meets it: WIDX in the region, SLOT canonical and wholly
written once a completion is signalled, IM set exactly inside READ's critical section, no port holding anything, the
results the host keeps of their types and none of them SINK_WRITE's count. -/
def Obligations.EveryStepKeepsTheInvariant : Prop :=
  ∀ s t : State, Inv s → step s = .next t → Inv t

/-- R210: no step from a state that meets the invariant faults, whatever line is next. -/
def Obligations.NoStepFaults : Prop :=
  ∀ (s : State) (f : Fault), Inv s → step s ≠ .fault f

/-- R206 (derived in the spec): from a state that meets the invariant READ's copy step has a next state, and every byte
it copies is the one SLOT lists at its offset, so a byte ENGINE wrote since reset and never an unspecified one: the one
byte at RD_K, or with frame granularity every byte of the region. -/
def Obligations.ReadCopiesOnlyStoredBytes : Prop :=
  ∀ s : State, Inv s → s.rdPhase = .copy → ∃ t : State, readStep s = .next t ∧
    (s.cfg.copyGranularity = .byte → ∃ b : Byte, Mem.lookup s.slot s.rdK = some b ∧ t.rx = s.rx ++ [b]) ∧
    (s.cfg.copyGranularity = .frame → t.rx.length = s.cfg.regionSize ∧
      ∀ x, x < s.cfg.regionSize → ∃ b : Byte, Mem.lookup s.slot x = some b ∧ t.rx[x]? = some b)

/-- R69, R202 (d): in a state that meets the invariant, HANDLER has no step between READ's mask and unmask, and ENGINE
always has one, whatever the line brings onto the ports. -/
def Obligations.MaskStopsTheHandlerNotTheEngine : Prop :=
  ∀ (s : State) (p : Ports), Inv s → s.rdPhase = .copy ∨ s.rdPhase = .resample ∨ s.rdPhase = .unmask →
    exec .handler { s with ports := p } = .refused .handlerNotEnabled ∧
    (∃ t, exec .engByte { s with ports := p } = .next t ∧ t.rdy = s.rdy ∧ (s.tc = true → t.tc = true)) ∧
    (∃ t, exec .engError { s with ports := p } = .next t ∧ t.rdy = s.rdy)

/-- R66: under P_TIMELY the frame read is the frame received. If the engine fills the region from offset 0 with `frame`,
no ENG_BYTE comes between that and READ's last copy step (`mid` may be any other lines), and the READ then completes
among bytes, errors and HANDLER steps, it returns exactly `frame`. -/
def Obligations.TimelyReadIsNotTorn : Prop :=
  ∀ (s t u : State) (frame : List Byte) (mid copying after : List ScriptLine),
    s.widx = 0 → frame.length = s.cfg.regionSize → timely (mid ++ copying) = true →
    (copying ++ after).all duringRead = true →
    runLines (feed frame ++ (mid ++
      (.command (encodeCode .read) (.expected (.lit s.cfg.regionSize)) :: copying))) s = .next u →
    u.rdPhase = .resample → runLines after u = .next t → t.rdPhase = .idle →
    t.hostVars[0]? = some { bytesRead := some s.cfg.regionSize, rx := some frame }

/-- R254 (derived in the spec): without P_TIMELY frames tear. A READ that starts after j bytes of the next period
returns those j bytes, then the rest of the old period, and still returns the region size. -/
def Obligations.LateReadMixesTwoPeriods : Prop :=
  ∀ (s : State) (new : List Byte), s.hostBusy = false → s.rdy = .full → s.widx = 0 →
    new.length < s.cfg.regionSize →
    ∃ t : State, runLines (feed new ++ readLines s.cfg.toParams 0) s = .next t ∧
      t.hostVars =
        { bytesRead := some s.cfg.regionSize, rx := some (new ++ s.slotBytes.drop new.length) } :: s.hostVars

/-- R4, R172, R97: a frame from node A to node B. What SERIALIZE puts on the line at A, fed to B's engine from offset 0,
announced by HANDLER and RECEIVEd, is the values clamped, with `ok = 1`. -/
def Obligations.FrameTravelsFromNodeToNode : Prop :=
  ∀ (a b : State) (vs : List Nat), b.cfg = a.cfg → fitsValues a.cfg.toParams vs = true → a.hostBusy = false →
    b.hostBusy = false → b.widx = 0 → b.te = false → b.im = false →
    ∃ (ta tb : State) (frame : List Byte),
      runLines (send (.lit vs) ++ [sinkAnswers a.cfg.packedSize, sinkAnswers a.cfg.digestSize]) a = .next ta ∧
      ta.hostVars = { ok := some true } :: a.hostVars ∧ ta.sinkLog = a.sinkLog ++ frame ∧
      runLines (feed frame ++ (handlerRuns :: receive b.cfg.toParams 0)) b = .next tb ∧
      tb.hostVars[0]? =
        some { values := some (vs.map (clampTo a.cfg.minimal a.cfg.maximum)), ok := some true }

/-- R13, R132: each pure operation completes in every state, changes nothing but its results, and gives the same
results in every state with the same operands and configuration. -/
def Obligations.PureOperationsTouchNoState : Prop :=
  ∀ (i : Instr) (s : State), i.isPure = true → ∃ r : Results,
    exec i s = .next { s with res := r, hostVars := r :: s.hostVars } ∧
    ∀ t : State, t.cfg = s.cfg → t.ports = s.ports →
      exec i t = .next { t with res := r, hostVars := r :: t.hostVars }

/-! ## Codes and steps -/

/-- R92 (the numbers are the spec's decision D2, log 28): the eighteen codes of the table, and no other, select an
operation; encoding and decoding agree both ways; bit 7 tells an agent event from a host command. -/
def Obligations.CodesOfTheTable : Prop :=
  decodeCode 0x00 = some .validate ∧ decodeCode 0x01 = some .normalize ∧ decodeCode 0x02 = some .denormalize ∧
  decodeCode 0x10 = some .pack ∧ decodeCode 0x11 = some .unpack ∧ decodeCode 0x20 = some .calculate ∧
  decodeCode 0x21 = some .calcHwcrc ∧ decodeCode 0x22 = some .calcCrc8 ∧ decodeCode 0x23 = some .calcSum ∧
  decodeCode 0x30 = some .serialize ∧ decodeCode 0x31 = some .deserialize ∧ decodeCode 0x40 = some .read ∧
  decodeCode 0x41 = some .available ∧ decodeCode 0x80 = some .engByte ∧ decodeCode 0x81 = some .engError ∧
  decodeCode 0x82 = some .handler ∧ decodeCode 0x83 = some .sinkWrite ∧ decodeCode 0x8F = some .reset ∧
  (∀ i : Instr, decode (encode i) = .ok i []) ∧
  (∀ (c : Byte) (i : Instr), decodeCode c = some i → encodeCode i = c) ∧
  (∀ i : Instr, (encodeCode i).getLsbD 7 = i.isEvent)

/-- R94 (the spec's decision D2, log 28): a code outside the table is refused, and so is an agent event's code presented
by HOST. The lines of the wrong agent or at the wrong time are refused too: a host command's code on an agent's line
(R92; log 28), a host command while an operation is in progress (R20; log 13), a READ step with no READ in progress
(R25; log 13). -/
def Obligations.UnassignedCodesAreRefused : Prop :=
  ∀ (s : State) (code : Byte) (args : Args) (input : EnvInput),
    (decodeCode code = none → runLine (.command code args) s = .refused .unassignedCode ∧
      runLine (.event code input) s = .refused .unassignedCode) ∧
    (∀ i, decodeCode code = some i → i.isEvent = true →
      runLine (.command code args) s = .refused .eventCodeFromHost) ∧
    (∀ i, decodeCode code = some i → i.isEvent = false →
      runLine (.event code input) s = .refused .commandCodeFromAgent ∧
      (s.rdPhase ≠ .idle ∨ s.serPhase ≠ .idle → runLine (.command code args) s = .refused .hostBusy)) ∧
    (s.rdPhase = .idle → runLine .readStep s = .refused .noReadInProgress)

/-- R65, R92, R96: a step runs the decoded operation. The script's head line is taken; a command whose operands load, with
HOST idle, and an event whose input loads, are exec of the decoded operation on those ports, and the ports are emptied
when the step ends (`endStep`, R24); a READ's line is its next step, ended the same way; with no line left the step is one of the free environment (log 4). -/
def Obligations.StepRunsTheDecodedOperation : Prop :=
  ∀ (s : State) (rest : List ScriptLine),
    (∀ (code : Byte) (args : Args) (i : Instr) (p : Ports), s.script = .command code args :: rest →
      decode [code] = .ok i [] → i.isEvent = false → s.hostBusy = false →
      loadOperands i args { s with script := rest } = .ok p →
      step s = endStep (exec i { s with script := rest, ports := p })) ∧
    (∀ (code : Byte) (input : EnvInput) (i : Instr) (p : Ports), s.script = .event code input :: rest →
      decode [code] = .ok i [] → i.isEvent = true → loadInput i input { s with script := rest } = .ok p →
      step s = endStep (exec i { s with script := rest, ports := p })) ∧
    (s.script = .readStep :: rest → step s = endStep (readStep { s with script := rest })) ∧
    (s.script = [] → step s = runLine (Config.envLine s.drawn) { s with drawn := s.drawn + 1 })

/-- Log 5 (the model's choice): the operation placed by `withFetchWord` is the one the very next step runs, on operands
written out that are the empty ports' values: a host command with no operation in progress, an event with what enables
it. -/
def Obligations.PlacedOperationRunsNext : Prop :=
  ∀ (i : Instr) (s : State),
    (i.isEvent = false →
      step (s.withFetchWord 8 (encodeCode i).toNat) = endStep (exec i { s with
        rdPhase := .idle, rdK := 0, rx := [], serPhase := .idle, serPb := [], serDigest := 0, serW1 := 0
        ports := emptyPorts s.cfg.toParams })) ∧
    (i.isEvent = true →
      step (s.withFetchWord 8 (encodeCode i).toNat) =
        endStep (exec i { readyForEvent i s with script := s.script, ports := emptyPorts s.cfg.toParams }))

/-- R24: "a port holds a value only for the duration of the operation that carries it, and no operation can read what an
earlier operation left on a port". Every step leaves the ports holding nothing; a step does the same whatever stands on
the ports before it; what a line brings onto them has the ports' types (R24's table, R26). What ports that hold nothing
hold is the model's choice (log 6). -/
def Obligations.PortsCarryOneOperationOnly : Prop :=
  (∀ s t : State, step s = .next t → t.ports = emptyPorts s.cfg.toParams ∧ t.res = {}) ∧
  (∀ (s : State) (p : Ports) (r : Results), step { s with ports := p, res := r } = step s) ∧
  (∀ (i : Instr) (s : State) (args : Args) (p : Ports), loadOperands i args s = .ok p →
    p.fit s.cfg.toParams s.cfg.packedSize = true) ∧
  (∀ (i : Instr) (s : State) (input : EnvInput) (p : Ports), loadInput i input s = .ok p →
    p.fit s.cfg.toParams s.cfg.packedSize = true)
end

