-- ==== Sys2Proof/Laws/State.lean ====
section
/-! SUPPORT. One lemma per field per update of State: what each named update writes and what it leaves. -/

namespace Sys2Proof.Machine

variable (s : State)

@[simp] theorem State.setIm_cfg (b : Bool) : (s.setIm b).cfg = s.cfg := rfl
@[simp] theorem State.setIm_slot (b : Bool) : (s.setIm b).slot = s.slot := rfl
@[simp] theorem State.setIm_slotEpoch (b : Bool) : (s.setIm b).slotEpoch = s.slotEpoch := rfl
@[simp] theorem State.setIm_rdy (b : Bool) : (s.setIm b).rdy = s.rdy := rfl
@[simp] theorem State.setIm_tc (b : Bool) : (s.setIm b).tc = s.tc := rfl
@[simp] theorem State.setIm_te (b : Bool) : (s.setIm b).te = s.te := rfl
@[simp] theorem State.setIm_im (b : Bool) : (s.setIm b).im = b := rfl
@[simp] theorem State.setIm_widx (b : Bool) : (s.setIm b).widx = s.widx := rfl
@[simp] theorem State.setIm_rdPhase (b : Bool) : (s.setIm b).rdPhase = s.rdPhase := rfl
@[simp] theorem State.setIm_rdK (b : Bool) : (s.setIm b).rdK = s.rdK := rfl
@[simp] theorem State.setIm_rx (b : Bool) : (s.setIm b).rx = s.rx := rfl
@[simp] theorem State.setIm_serPhase (b : Bool) : (s.setIm b).serPhase = s.serPhase := rfl
@[simp] theorem State.setIm_serPb (b : Bool) : (s.setIm b).serPb = s.serPb := rfl
@[simp] theorem State.setIm_serDigest (b : Bool) : (s.setIm b).serDigest = s.serDigest := rfl
@[simp] theorem State.setIm_serW1 (b : Bool) : (s.setIm b).serW1 = s.serW1 := rfl
@[simp] theorem State.setIm_sinkLog (b : Bool) : (s.setIm b).sinkLog = s.sinkLog := rfl
@[simp] theorem State.setIm_ports (b : Bool) : (s.setIm b).ports = s.ports := rfl
@[simp] theorem State.setIm_res (b : Bool) : (s.setIm b).res = s.res := rfl
@[simp] theorem State.setIm_hostVars (b : Bool) : (s.setIm b).hostVars = s.hostVars := rfl
@[simp] theorem State.setIm_script (b : Bool) : (s.setIm b).script = s.script := rfl
@[simp] theorem State.setIm_drawn (b : Bool) : (s.setIm b).drawn = s.drawn := rfl

@[simp] theorem State.setRdy_cfg (r : Readiness) : (s.setRdy r).cfg = s.cfg := rfl
@[simp] theorem State.setRdy_slot (r : Readiness) : (s.setRdy r).slot = s.slot := rfl
@[simp] theorem State.setRdy_slotEpoch (r : Readiness) : (s.setRdy r).slotEpoch = s.slotEpoch := rfl
@[simp] theorem State.setRdy_rdy (r : Readiness) : (s.setRdy r).rdy = r := rfl
@[simp] theorem State.setRdy_tc (r : Readiness) : (s.setRdy r).tc = s.tc := rfl
@[simp] theorem State.setRdy_te (r : Readiness) : (s.setRdy r).te = s.te := rfl
@[simp] theorem State.setRdy_im (r : Readiness) : (s.setRdy r).im = s.im := rfl
@[simp] theorem State.setRdy_widx (r : Readiness) : (s.setRdy r).widx = s.widx := rfl
@[simp] theorem State.setRdy_rdPhase (r : Readiness) : (s.setRdy r).rdPhase = s.rdPhase := rfl
@[simp] theorem State.setRdy_rdK (r : Readiness) : (s.setRdy r).rdK = s.rdK := rfl
@[simp] theorem State.setRdy_rx (r : Readiness) : (s.setRdy r).rx = s.rx := rfl
@[simp] theorem State.setRdy_serPhase (r : Readiness) : (s.setRdy r).serPhase = s.serPhase := rfl
@[simp] theorem State.setRdy_serPb (r : Readiness) : (s.setRdy r).serPb = s.serPb := rfl
@[simp] theorem State.setRdy_serDigest (r : Readiness) : (s.setRdy r).serDigest = s.serDigest := rfl
@[simp] theorem State.setRdy_serW1 (r : Readiness) : (s.setRdy r).serW1 = s.serW1 := rfl
@[simp] theorem State.setRdy_sinkLog (r : Readiness) : (s.setRdy r).sinkLog = s.sinkLog := rfl
@[simp] theorem State.setRdy_ports (r : Readiness) : (s.setRdy r).ports = s.ports := rfl
@[simp] theorem State.setRdy_res (r : Readiness) : (s.setRdy r).res = s.res := rfl
@[simp] theorem State.setRdy_hostVars (r : Readiness) : (s.setRdy r).hostVars = s.hostVars := rfl
@[simp] theorem State.setRdy_script (r : Readiness) : (s.setRdy r).script = s.script := rfl
@[simp] theorem State.setRdy_drawn (r : Readiness) : (s.setRdy r).drawn = s.drawn := rfl

@[simp] theorem State.setTc_cfg (b : Bool) : (s.setTc b).cfg = s.cfg := rfl
@[simp] theorem State.setTc_slot (b : Bool) : (s.setTc b).slot = s.slot := rfl
@[simp] theorem State.setTc_slotEpoch (b : Bool) : (s.setTc b).slotEpoch = s.slotEpoch := rfl
@[simp] theorem State.setTc_rdy (b : Bool) : (s.setTc b).rdy = s.rdy := rfl
@[simp] theorem State.setTc_tc (b : Bool) : (s.setTc b).tc = b := rfl
@[simp] theorem State.setTc_te (b : Bool) : (s.setTc b).te = s.te := rfl
@[simp] theorem State.setTc_im (b : Bool) : (s.setTc b).im = s.im := rfl
@[simp] theorem State.setTc_widx (b : Bool) : (s.setTc b).widx = s.widx := rfl
@[simp] theorem State.setTc_rdPhase (b : Bool) : (s.setTc b).rdPhase = s.rdPhase := rfl
@[simp] theorem State.setTc_rdK (b : Bool) : (s.setTc b).rdK = s.rdK := rfl
@[simp] theorem State.setTc_rx (b : Bool) : (s.setTc b).rx = s.rx := rfl
@[simp] theorem State.setTc_serPhase (b : Bool) : (s.setTc b).serPhase = s.serPhase := rfl
@[simp] theorem State.setTc_serPb (b : Bool) : (s.setTc b).serPb = s.serPb := rfl
@[simp] theorem State.setTc_serDigest (b : Bool) : (s.setTc b).serDigest = s.serDigest := rfl
@[simp] theorem State.setTc_serW1 (b : Bool) : (s.setTc b).serW1 = s.serW1 := rfl
@[simp] theorem State.setTc_sinkLog (b : Bool) : (s.setTc b).sinkLog = s.sinkLog := rfl
@[simp] theorem State.setTc_ports (b : Bool) : (s.setTc b).ports = s.ports := rfl
@[simp] theorem State.setTc_res (b : Bool) : (s.setTc b).res = s.res := rfl
@[simp] theorem State.setTc_hostVars (b : Bool) : (s.setTc b).hostVars = s.hostVars := rfl
@[simp] theorem State.setTc_script (b : Bool) : (s.setTc b).script = s.script := rfl
@[simp] theorem State.setTc_drawn (b : Bool) : (s.setTc b).drawn = s.drawn := rfl

@[simp] theorem State.setTe_cfg (b : Bool) : (s.setTe b).cfg = s.cfg := rfl
@[simp] theorem State.setTe_slot (b : Bool) : (s.setTe b).slot = s.slot := rfl
@[simp] theorem State.setTe_slotEpoch (b : Bool) : (s.setTe b).slotEpoch = s.slotEpoch := rfl
@[simp] theorem State.setTe_rdy (b : Bool) : (s.setTe b).rdy = s.rdy := rfl
@[simp] theorem State.setTe_tc (b : Bool) : (s.setTe b).tc = s.tc := rfl
@[simp] theorem State.setTe_te (b : Bool) : (s.setTe b).te = b := rfl
@[simp] theorem State.setTe_im (b : Bool) : (s.setTe b).im = s.im := rfl
@[simp] theorem State.setTe_widx (b : Bool) : (s.setTe b).widx = s.widx := rfl
@[simp] theorem State.setTe_rdPhase (b : Bool) : (s.setTe b).rdPhase = s.rdPhase := rfl
@[simp] theorem State.setTe_rdK (b : Bool) : (s.setTe b).rdK = s.rdK := rfl
@[simp] theorem State.setTe_rx (b : Bool) : (s.setTe b).rx = s.rx := rfl
@[simp] theorem State.setTe_serPhase (b : Bool) : (s.setTe b).serPhase = s.serPhase := rfl
@[simp] theorem State.setTe_serPb (b : Bool) : (s.setTe b).serPb = s.serPb := rfl
@[simp] theorem State.setTe_serDigest (b : Bool) : (s.setTe b).serDigest = s.serDigest := rfl
@[simp] theorem State.setTe_serW1 (b : Bool) : (s.setTe b).serW1 = s.serW1 := rfl
@[simp] theorem State.setTe_sinkLog (b : Bool) : (s.setTe b).sinkLog = s.sinkLog := rfl
@[simp] theorem State.setTe_ports (b : Bool) : (s.setTe b).ports = s.ports := rfl
@[simp] theorem State.setTe_res (b : Bool) : (s.setTe b).res = s.res := rfl
@[simp] theorem State.setTe_hostVars (b : Bool) : (s.setTe b).hostVars = s.hostVars := rfl
@[simp] theorem State.setTe_script (b : Bool) : (s.setTe b).script = s.script := rfl
@[simp] theorem State.setTe_drawn (b : Bool) : (s.setTe b).drawn = s.drawn := rfl

@[simp] theorem State.putSlot_cfg (x : Nat) (b : Byte) : (s.putSlot x b).cfg = s.cfg := rfl
@[simp] theorem State.putSlot_slot (x : Nat) (b : Byte) : (s.putSlot x b).slot = Mem.write s.slot x b := rfl
@[simp] theorem State.putSlot_slotEpoch (x : Nat) (b : Byte) : (s.putSlot x b).slotEpoch = s.slotEpoch := rfl
@[simp] theorem State.putSlot_rdy (x : Nat) (b : Byte) : (s.putSlot x b).rdy = s.rdy := rfl
@[simp] theorem State.putSlot_tc (x : Nat) (b : Byte) : (s.putSlot x b).tc = s.tc := rfl
@[simp] theorem State.putSlot_te (x : Nat) (b : Byte) : (s.putSlot x b).te = s.te := rfl
@[simp] theorem State.putSlot_im (x : Nat) (b : Byte) : (s.putSlot x b).im = s.im := rfl
@[simp] theorem State.putSlot_widx (x : Nat) (b : Byte) : (s.putSlot x b).widx = s.widx := rfl
@[simp] theorem State.putSlot_rdPhase (x : Nat) (b : Byte) : (s.putSlot x b).rdPhase = s.rdPhase := rfl
@[simp] theorem State.putSlot_rdK (x : Nat) (b : Byte) : (s.putSlot x b).rdK = s.rdK := rfl
@[simp] theorem State.putSlot_rx (x : Nat) (b : Byte) : (s.putSlot x b).rx = s.rx := rfl
@[simp] theorem State.putSlot_serPhase (x : Nat) (b : Byte) : (s.putSlot x b).serPhase = s.serPhase := rfl
@[simp] theorem State.putSlot_serPb (x : Nat) (b : Byte) : (s.putSlot x b).serPb = s.serPb := rfl
@[simp] theorem State.putSlot_serDigest (x : Nat) (b : Byte) : (s.putSlot x b).serDigest = s.serDigest := rfl
@[simp] theorem State.putSlot_serW1 (x : Nat) (b : Byte) : (s.putSlot x b).serW1 = s.serW1 := rfl
@[simp] theorem State.putSlot_sinkLog (x : Nat) (b : Byte) : (s.putSlot x b).sinkLog = s.sinkLog := rfl
@[simp] theorem State.putSlot_ports (x : Nat) (b : Byte) : (s.putSlot x b).ports = s.ports := rfl
@[simp] theorem State.putSlot_res (x : Nat) (b : Byte) : (s.putSlot x b).res = s.res := rfl
@[simp] theorem State.putSlot_hostVars (x : Nat) (b : Byte) : (s.putSlot x b).hostVars = s.hostVars := rfl
@[simp] theorem State.putSlot_script (x : Nat) (b : Byte) : (s.putSlot x b).script = s.script := rfl
@[simp] theorem State.putSlot_drawn (x : Nat) (b : Byte) : (s.putSlot x b).drawn = s.drawn := rfl

@[simp] theorem State.answer_cfg (r : Results) : (s.answer r).cfg = s.cfg := rfl
@[simp] theorem State.answer_slot (r : Results) : (s.answer r).slot = s.slot := rfl
@[simp] theorem State.answer_slotEpoch (r : Results) : (s.answer r).slotEpoch = s.slotEpoch := rfl
@[simp] theorem State.answer_rdy (r : Results) : (s.answer r).rdy = s.rdy := rfl
@[simp] theorem State.answer_tc (r : Results) : (s.answer r).tc = s.tc := rfl
@[simp] theorem State.answer_te (r : Results) : (s.answer r).te = s.te := rfl
@[simp] theorem State.answer_im (r : Results) : (s.answer r).im = s.im := rfl
@[simp] theorem State.answer_widx (r : Results) : (s.answer r).widx = s.widx := rfl
@[simp] theorem State.answer_rdPhase (r : Results) : (s.answer r).rdPhase = s.rdPhase := rfl
@[simp] theorem State.answer_rdK (r : Results) : (s.answer r).rdK = s.rdK := rfl
@[simp] theorem State.answer_rx (r : Results) : (s.answer r).rx = s.rx := rfl
@[simp] theorem State.answer_serPhase (r : Results) : (s.answer r).serPhase = s.serPhase := rfl
@[simp] theorem State.answer_serPb (r : Results) : (s.answer r).serPb = s.serPb := rfl
@[simp] theorem State.answer_serDigest (r : Results) : (s.answer r).serDigest = s.serDigest := rfl
@[simp] theorem State.answer_serW1 (r : Results) : (s.answer r).serW1 = s.serW1 := rfl
@[simp] theorem State.answer_sinkLog (r : Results) : (s.answer r).sinkLog = s.sinkLog := rfl
@[simp] theorem State.answer_ports (r : Results) : (s.answer r).ports = s.ports := rfl
@[simp] theorem State.answer_res (r : Results) : (s.answer r).res = r := rfl
@[simp] theorem State.answer_hostVars (r : Results) : (s.answer r).hostVars = r :: s.hostVars := rfl
@[simp] theorem State.answer_script (r : Results) : (s.answer r).script = s.script := rfl
@[simp] theorem State.answer_drawn (r : Results) : (s.answer r).drawn = s.drawn := rfl

@[simp] theorem State.returnOk_cfg (ok : Bool) (count : Nat) : (s.returnOk ok count).cfg = s.cfg := rfl
@[simp] theorem State.returnOk_slot (ok : Bool) (count : Nat) : (s.returnOk ok count).slot = s.slot := rfl
@[simp] theorem State.returnOk_slotEpoch (ok : Bool) (count : Nat) : (s.returnOk ok count).slotEpoch = s.slotEpoch := rfl
@[simp] theorem State.returnOk_rdy (ok : Bool) (count : Nat) : (s.returnOk ok count).rdy = s.rdy := rfl
@[simp] theorem State.returnOk_tc (ok : Bool) (count : Nat) : (s.returnOk ok count).tc = s.tc := rfl
@[simp] theorem State.returnOk_te (ok : Bool) (count : Nat) : (s.returnOk ok count).te = s.te := rfl
@[simp] theorem State.returnOk_im (ok : Bool) (count : Nat) : (s.returnOk ok count).im = s.im := rfl
@[simp] theorem State.returnOk_widx (ok : Bool) (count : Nat) : (s.returnOk ok count).widx = s.widx := rfl
@[simp] theorem State.returnOk_rdPhase (ok : Bool) (count : Nat) : (s.returnOk ok count).rdPhase = s.rdPhase := rfl
@[simp] theorem State.returnOk_rdK (ok : Bool) (count : Nat) : (s.returnOk ok count).rdK = s.rdK := rfl
@[simp] theorem State.returnOk_rx (ok : Bool) (count : Nat) : (s.returnOk ok count).rx = s.rx := rfl
@[simp] theorem State.returnOk_serPhase (ok : Bool) (count : Nat) : (s.returnOk ok count).serPhase = s.serPhase := rfl
@[simp] theorem State.returnOk_serPb (ok : Bool) (count : Nat) : (s.returnOk ok count).serPb = s.serPb := rfl
@[simp] theorem State.returnOk_serDigest (ok : Bool) (count : Nat) : (s.returnOk ok count).serDigest = s.serDigest := rfl
@[simp] theorem State.returnOk_serW1 (ok : Bool) (count : Nat) : (s.returnOk ok count).serW1 = s.serW1 := rfl
@[simp] theorem State.returnOk_sinkLog (ok : Bool) (count : Nat) : (s.returnOk ok count).sinkLog = s.sinkLog := rfl
@[simp] theorem State.returnOk_ports (ok : Bool) (count : Nat) : (s.returnOk ok count).ports = s.ports := rfl
@[simp] theorem State.returnOk_res (ok : Bool) (count : Nat) : (s.returnOk ok count).res =
    { ok := some ok, bytesWritten := some count } := rfl
@[simp] theorem State.returnOk_hostVars (ok : Bool) (count : Nat) : (s.returnOk ok count).hostVars =
    { ok := some ok } :: s.hostVars := rfl
@[simp] theorem State.returnOk_script (ok : Bool) (count : Nat) : (s.returnOk ok count).script = s.script := rfl
@[simp] theorem State.returnOk_drawn (ok : Bool) (count : Nat) : (s.returnOk ok count).drawn = s.drawn := rfl

@[simp] theorem State.closePorts_cfg : (s.closePorts).cfg = s.cfg := rfl
@[simp] theorem State.closePorts_slot : (s.closePorts).slot = s.slot := rfl
@[simp] theorem State.closePorts_slotEpoch : (s.closePorts).slotEpoch = s.slotEpoch := rfl
@[simp] theorem State.closePorts_rdy : (s.closePorts).rdy = s.rdy := rfl
@[simp] theorem State.closePorts_tc : (s.closePorts).tc = s.tc := rfl
@[simp] theorem State.closePorts_te : (s.closePorts).te = s.te := rfl
@[simp] theorem State.closePorts_im : (s.closePorts).im = s.im := rfl
@[simp] theorem State.closePorts_widx : (s.closePorts).widx = s.widx := rfl
@[simp] theorem State.closePorts_rdPhase : (s.closePorts).rdPhase = s.rdPhase := rfl
@[simp] theorem State.closePorts_rdK : (s.closePorts).rdK = s.rdK := rfl
@[simp] theorem State.closePorts_rx : (s.closePorts).rx = s.rx := rfl
@[simp] theorem State.closePorts_serPhase : (s.closePorts).serPhase = s.serPhase := rfl
@[simp] theorem State.closePorts_serPb : (s.closePorts).serPb = s.serPb := rfl
@[simp] theorem State.closePorts_serDigest : (s.closePorts).serDigest = s.serDigest := rfl
@[simp] theorem State.closePorts_serW1 : (s.closePorts).serW1 = s.serW1 := rfl
@[simp] theorem State.closePorts_sinkLog : (s.closePorts).sinkLog = s.sinkLog := rfl
@[simp] theorem State.closePorts_ports : (s.closePorts).ports = emptyPorts s.cfg.toParams := rfl
@[simp] theorem State.closePorts_res : (s.closePorts).res = ({} : Results) := rfl
@[simp] theorem State.closePorts_hostVars : (s.closePorts).hostVars = s.hostVars := rfl
@[simp] theorem State.closePorts_script : (s.closePorts).script = s.script := rfl
@[simp] theorem State.closePorts_drawn : (s.closePorts).drawn = s.drawn := rfl

@[simp] theorem State.clearResults_cfg : (s.clearResults).cfg = s.cfg := rfl
@[simp] theorem State.clearResults_slot : (s.clearResults).slot = s.slot := rfl
@[simp] theorem State.clearResults_slotEpoch : (s.clearResults).slotEpoch = s.slotEpoch := rfl
@[simp] theorem State.clearResults_rdy : (s.clearResults).rdy = s.rdy := rfl
@[simp] theorem State.clearResults_tc : (s.clearResults).tc = s.tc := rfl
@[simp] theorem State.clearResults_te : (s.clearResults).te = s.te := rfl
@[simp] theorem State.clearResults_im : (s.clearResults).im = s.im := rfl
@[simp] theorem State.clearResults_widx : (s.clearResults).widx = s.widx := rfl
@[simp] theorem State.clearResults_rdPhase : (s.clearResults).rdPhase = s.rdPhase := rfl
@[simp] theorem State.clearResults_rdK : (s.clearResults).rdK = s.rdK := rfl
@[simp] theorem State.clearResults_rx : (s.clearResults).rx = s.rx := rfl
@[simp] theorem State.clearResults_serPhase : (s.clearResults).serPhase = s.serPhase := rfl
@[simp] theorem State.clearResults_serPb : (s.clearResults).serPb = s.serPb := rfl
@[simp] theorem State.clearResults_serDigest : (s.clearResults).serDigest = s.serDigest := rfl
@[simp] theorem State.clearResults_serW1 : (s.clearResults).serW1 = s.serW1 := rfl
@[simp] theorem State.clearResults_sinkLog : (s.clearResults).sinkLog = s.sinkLog := rfl
@[simp] theorem State.clearResults_ports : (s.clearResults).ports = s.ports := rfl
@[simp] theorem State.clearResults_res : (s.clearResults).res = ({} : Results) := rfl
@[simp] theorem State.clearResults_hostVars : (s.clearResults).hostVars = s.hostVars := rfl
@[simp] theorem State.clearResults_script : (s.clearResults).script = s.script := rfl
@[simp] theorem State.clearResults_drawn : (s.clearResults).drawn = s.drawn := rfl

@[simp] theorem State.endRead_cfg : (s.endRead).cfg = s.cfg := rfl
@[simp] theorem State.endRead_slot : (s.endRead).slot = s.slot := rfl
@[simp] theorem State.endRead_slotEpoch : (s.endRead).slotEpoch = s.slotEpoch := rfl
@[simp] theorem State.endRead_rdy : (s.endRead).rdy = s.rdy := rfl
@[simp] theorem State.endRead_tc : (s.endRead).tc = s.tc := rfl
@[simp] theorem State.endRead_te : (s.endRead).te = s.te := rfl
@[simp] theorem State.endRead_im : (s.endRead).im = s.im := rfl
@[simp] theorem State.endRead_widx : (s.endRead).widx = s.widx := rfl
@[simp] theorem State.endRead_rdPhase : (s.endRead).rdPhase = .idle := rfl
@[simp] theorem State.endRead_rdK : (s.endRead).rdK = 0 := rfl
@[simp] theorem State.endRead_rx : (s.endRead).rx = [] := rfl
@[simp] theorem State.endRead_serPhase : (s.endRead).serPhase = s.serPhase := rfl
@[simp] theorem State.endRead_serPb : (s.endRead).serPb = s.serPb := rfl
@[simp] theorem State.endRead_serDigest : (s.endRead).serDigest = s.serDigest := rfl
@[simp] theorem State.endRead_serW1 : (s.endRead).serW1 = s.serW1 := rfl
@[simp] theorem State.endRead_sinkLog : (s.endRead).sinkLog = s.sinkLog := rfl
@[simp] theorem State.endRead_ports : (s.endRead).ports = s.ports := rfl
@[simp] theorem State.endRead_res : (s.endRead).res = s.res := rfl
@[simp] theorem State.endRead_hostVars : (s.endRead).hostVars = s.hostVars := rfl
@[simp] theorem State.endRead_script : (s.endRead).script = s.script := rfl
@[simp] theorem State.endRead_drawn : (s.endRead).drawn = s.drawn := rfl

@[simp] theorem State.endSerialize_cfg : (s.endSerialize).cfg = s.cfg := rfl
@[simp] theorem State.endSerialize_slot : (s.endSerialize).slot = s.slot := rfl
@[simp] theorem State.endSerialize_slotEpoch : (s.endSerialize).slotEpoch = s.slotEpoch := rfl
@[simp] theorem State.endSerialize_rdy : (s.endSerialize).rdy = s.rdy := rfl
@[simp] theorem State.endSerialize_tc : (s.endSerialize).tc = s.tc := rfl
@[simp] theorem State.endSerialize_te : (s.endSerialize).te = s.te := rfl
@[simp] theorem State.endSerialize_im : (s.endSerialize).im = s.im := rfl
@[simp] theorem State.endSerialize_widx : (s.endSerialize).widx = s.widx := rfl
@[simp] theorem State.endSerialize_rdPhase : (s.endSerialize).rdPhase = s.rdPhase := rfl
@[simp] theorem State.endSerialize_rdK : (s.endSerialize).rdK = s.rdK := rfl
@[simp] theorem State.endSerialize_rx : (s.endSerialize).rx = s.rx := rfl
@[simp] theorem State.endSerialize_serPhase : (s.endSerialize).serPhase = .idle := rfl
@[simp] theorem State.endSerialize_serPb : (s.endSerialize).serPb = [] := rfl
@[simp] theorem State.endSerialize_serDigest : (s.endSerialize).serDigest = 0 := rfl
@[simp] theorem State.endSerialize_serW1 : (s.endSerialize).serW1 = 0 := rfl
@[simp] theorem State.endSerialize_sinkLog : (s.endSerialize).sinkLog = s.sinkLog := rfl
@[simp] theorem State.endSerialize_ports : (s.endSerialize).ports = s.ports := rfl
@[simp] theorem State.endSerialize_res : (s.endSerialize).res = s.res := rfl
@[simp] theorem State.endSerialize_hostVars : (s.endSerialize).hostVars = s.hostVars := rfl
@[simp] theorem State.endSerialize_script : (s.endSerialize).script = s.script := rfl
@[simp] theorem State.endSerialize_drawn : (s.endSerialize).drawn = s.drawn := rfl

@[simp] theorem State.appendSink_cfg (bs : List Byte) : (s.appendSink bs).cfg = s.cfg := rfl
@[simp] theorem State.appendSink_slot (bs : List Byte) : (s.appendSink bs).slot = s.slot := rfl
@[simp] theorem State.appendSink_slotEpoch (bs : List Byte) : (s.appendSink bs).slotEpoch = s.slotEpoch := rfl
@[simp] theorem State.appendSink_rdy (bs : List Byte) : (s.appendSink bs).rdy = s.rdy := rfl
@[simp] theorem State.appendSink_tc (bs : List Byte) : (s.appendSink bs).tc = s.tc := rfl
@[simp] theorem State.appendSink_te (bs : List Byte) : (s.appendSink bs).te = s.te := rfl
@[simp] theorem State.appendSink_im (bs : List Byte) : (s.appendSink bs).im = s.im := rfl
@[simp] theorem State.appendSink_widx (bs : List Byte) : (s.appendSink bs).widx = s.widx := rfl
@[simp] theorem State.appendSink_rdPhase (bs : List Byte) : (s.appendSink bs).rdPhase = s.rdPhase := rfl
@[simp] theorem State.appendSink_rdK (bs : List Byte) : (s.appendSink bs).rdK = s.rdK := rfl
@[simp] theorem State.appendSink_rx (bs : List Byte) : (s.appendSink bs).rx = s.rx := rfl
@[simp] theorem State.appendSink_serPhase (bs : List Byte) : (s.appendSink bs).serPhase = s.serPhase := rfl
@[simp] theorem State.appendSink_serPb (bs : List Byte) : (s.appendSink bs).serPb = s.serPb := rfl
@[simp] theorem State.appendSink_serDigest (bs : List Byte) : (s.appendSink bs).serDigest = s.serDigest := rfl
@[simp] theorem State.appendSink_serW1 (bs : List Byte) : (s.appendSink bs).serW1 = s.serW1 := rfl
@[simp] theorem State.appendSink_sinkLog (bs : List Byte) : (s.appendSink bs).sinkLog = s.sinkLog ++ bs := rfl
@[simp] theorem State.appendSink_ports (bs : List Byte) : (s.appendSink bs).ports = s.ports := rfl
@[simp] theorem State.appendSink_res (bs : List Byte) : (s.appendSink bs).res = s.res := rfl
@[simp] theorem State.appendSink_hostVars (bs : List Byte) : (s.appendSink bs).hostVars = s.hostVars := rfl
@[simp] theorem State.appendSink_script (bs : List Byte) : (s.appendSink bs).script = s.script := rfl
@[simp] theorem State.appendSink_drawn (bs : List Byte) : (s.appendSink bs).drawn = s.drawn := rfl

end Sys2Proof.Machine
end

