-- ==== Sys2Proof/Laws/Bits.lean ====
section
/-! SUPPORT. Bit strings, bytes and the derived constants: the lemmas that let a claim speak of bit k of a number
and of global bit g of a buffer. -/

namespace Sys2Proof.Machine

theorem natOfBits_lt (l : List Bool) : natOfBits l < 2 ^ l.length := by
  induction l with
  | nil => simp [natOfBits]
  | cons b l ih =>
    have hb : b.toNat ≤ 1 := Bool.toNat_le b
    simp only [natOfBits, List.length_cons, pow_succ]
    omega

theorem testBit_natOfBits (l : List Bool) (k : Nat) : (natOfBits l).testBit k = l.getD k false := by
  induction l generalizing k with
  | nil => simp [natOfBits]
  | cons b l ih =>
    cases k with
    | zero =>
      cases b <;> simp [natOfBits, Nat.testBit_zero]
    | succ k =>
      have h : (b.toNat + 2 * natOfBits l) / 2 = natOfBits l := by
        have hb : b.toNat ≤ 1 := Bool.toNat_le b
        omega
      simp only [natOfBits, Nat.testBit_succ, h, ih, List.getD_cons_succ]

theorem natOfBits_range_testBit (x w : Nat) : natOfBits ((List.range w).map x.testBit) = x % 2 ^ w := by
  apply Nat.eq_of_testBit_eq
  intro k
  rw [testBit_natOfBits, Nat.testBit_mod_two_pow]
  by_cases h : k < w <;> simp [h, List.getD_eq_getElem?_getD]

@[simp] theorem getLsbD_byteOfBits (f : Nat → Bool) (m : Nat) :
    (byteOfBits f).getLsbD m = (decide (m < 8) && f m) := by
  unfold byteOfBits
  rw [BitVec.getLsbD_ofNat, testBit_natOfBits]
  by_cases h : m < 8 <;> simp [h, List.getD_eq_getElem?_getD]

theorem getLsbD_byte_ge (b : Byte) {m : Nat} (h : 8 ≤ m) : b.getLsbD m = false := BitVec.getLsbD_of_ge b m h

theorem testBit_natOfBytes (l : List Byte) (g : Nat) : (natOfBytes l).testBit g = bufBit l g := by
  induction l generalizing g with
  | nil => simp [natOfBytes, bufBit]
  | cons b l ih =>
    have hb : b.toNat < 2 ^ 8 := b.isLt
    have e : natOfBytes (b :: l) = 2 ^ 8 * natOfBytes l + b.toNat := by
      simp only [natOfBytes]; omega
    rw [e, Nat.testBit_two_pow_mul_add _ hb]
    split
    · rename_i h
      have h0 : g / 8 = 0 := by omega
      have h1 : g % 8 = g := by omega
      simp [bufBit, h0, h1, BitVec.getLsbD]
    · rename_i h
      rw [ih]
      have h0 : g / 8 = (g - 8) / 8 + 1 := by omega
      have h1 : g % 8 = (g - 8) % 8 := by omega
      simp [bufBit, h0, h1]

theorem natOfBytes_lt (l : List Byte) : natOfBytes l < 2 ^ (8 * l.length) := by
  induction l with
  | nil => simp [natOfBytes]
  | cons b l ih =>
    have hb : b.toNat < 256 := b.isLt
    have e : 2 ^ (8 * (b :: l).length) = 256 * 2 ^ (8 * l.length) := by
      rw [List.length_cons, Nat.mul_add, pow_add]; omega
    simp only [natOfBytes]
    omega

@[simp] theorem bitlen_zero : bitlen 0 = 0 := rfl

theorem lt_two_pow_bitlen (x : Nat) : x < 2 ^ bitlen x := by
  unfold bitlen
  split
  · subst_vars; simp
  · exact Nat.lt_log2_self

theorem two_pow_le_of_bitlen {x : Nat} (h : x ≠ 0) : 2 ^ (bitlen x - 1) ≤ x := by
  unfold bitlen
  rw [if_neg h]
  exact Nat.log2_self_le h

theorem bitlen_le_of_lt {x w : Nat} (h : x < 2 ^ w) : bitlen x ≤ w := by
  unfold bitlen
  split
  · omega
  · rename_i hx
    exact (Nat.log2_lt hx).2 h

theorem bitlen_eq_zero {x : Nat} : bitlen x = 0 ↔ x = 0 := by
  unfold bitlen; split <;> simp_all

end Sys2Proof.Machine
end

