-- ==== Sys2Proof/Laws/Config.lean ====
section
/-! SUPPORT. What a legal configuration gives (R23): each cause bit of VALIDATE by itself, and the facts that follow
from `cfgerr = 0`. -/

namespace Sys2Proof.Machine

theorem cfgErr_bit (g : Bool) (w n lo hi : Nat) (hs : BitVec 2) (cap k : Nat) :
    (cfgErr g w n lo hi hs cap).getLsbD k =
      [g, decide (hi < lo), decide (n = 0), decide (lo ≤ hi) && decide (w < bitlen (hi - lo)),
        decide (cap < w) || decide (hs = 3)].getD k false := by
  unfold cfgErr
  rw [BitVec.getLsbD_ofNat, testBit_natOfBits]
  by_cases h : k < 5
  · simp [h]
  · simp [h, List.getD_eq_getElem?_getD]

end Sys2Proof.Machine

namespace Sys2Proof

open Machine

theorem Config.no_cause (c : Config) (k : Nat) :
    (cfgErr c.elemSigned c.elemWidth c.n c.minimal c.maximum c.hashSel.number c.rangeCapWidth).getLsbD k = false := by
  have h := c.isLegal
  simp only [Params.legal, Bool.and_eq_true, decide_eq_true_eq] at h
  rw [h.1.2]
  simp

theorem Config.minimal_le_maximum (c : Config) : c.minimal ≤ c.maximum := by
  have h := c.no_cause 1
  rw [cfgErr_bit] at h
  simpa using h

theorem Config.n_pos (c : Config) : 0 < c.n := by
  have h := c.no_cause 2
  rw [cfgErr_bit] at h
  simp at h
  omega

theorem Config.elemWidth_le_cap (c : Config) : c.elemWidth ≤ c.rangeCapWidth := by
  have h := c.no_cause 4
  rw [cfgErr_bit] at h
  simp at h
  omega

theorem Config.maximum_lt (c : Config) : c.maximum < 2 ^ c.elemWidth := by
  have h := c.isLegal
  simp only [Params.legal, Bool.and_eq_true, decide_eq_true_eq] at h
  exact h.1.1.2

theorem Config.minimal_lt (c : Config) : c.minimal < 2 ^ c.elemWidth :=
  Nat.lt_of_le_of_lt c.minimal_le_maximum c.maximum_lt

theorem Config.range_lt (c : Config) : c.range < 2 ^ c.bitWidth := lt_two_pow_bitlen _

theorem Config.range_eq (c : Config) : c.range + c.minimal = c.maximum := by
  have := c.minimal_le_maximum
  unfold Params.range
  omega

theorem Params.regionSize_eq (p : Params) : p.regionSize = p.packedSize + 1 := rfl

theorem Params.frameSize_eq (p : Params) : p.frameSize = p.packedSize + 1 := rfl

theorem Params.regionSize_pos (p : Params) : 0 < p.regionSize := by rw [p.regionSize_eq]; omega

/-- Every field bit lies in the PackedBuffer (R104, R125). -/
theorem Params.field_in_packed (p : Params) {g : Nat} (h : g < p.n * p.bitWidth) : g / 8 < p.packedSize := by
  unfold Params.packedSize bytesFor
  omega

end Sys2Proof
end

