-- ==== Sys2Proof/Laws/Codec.lean ====
section
/-! SUPPORT. The codec: what NORMALIZE and DENORMALIZE give on codes, each global bit of a PackedBuffer, each bit of
a raw code. -/

namespace Sys2Proof.Machine

theorem clampTo_mem {lo hi : Nat} (h : lo ≤ hi) (v : Nat) : lo ≤ clampTo lo hi v ∧ clampTo lo hi v ≤ hi := by
  unfold clampTo; split <;> [omega; (split <;> omega)]

theorem clampTo_of_mem {lo hi v : Nat} (h1 : lo ≤ v) (h2 : v ≤ hi) : clampTo lo hi v = v := by
  unfold clampTo; rw [if_neg (by omega), if_neg (by omega)]

theorem normalize_le_range (c : Config) (v : Nat) : normalizeValue c.toParams v ≤ c.range := by
  have := clampTo_mem c.minimal_le_maximum v
  unfold normalizeValue Params.range
  omega

theorem normalize_lt (c : Config) (v : Nat) : normalizeValue c.toParams v < 2 ^ c.bitWidth :=
  Nat.lt_of_le_of_lt (normalize_le_range c v) c.range_lt

/-- DENORMALIZE of a code without bits above BITWIDTH. -/
theorem denormalize_eq (p : Params) (code : Nat) :
    denormalizeCode p code = (code % 2 ^ p.bitWidth + p.minimal) % 2 ^ p.elemWidth := by
  unfold denormalizeCode Params.mask maskOf
  rw [Nat.and_two_pow_sub_one_eq_mod]

theorem testBit_rawCode (p : Params) (pb : List Byte) (i k : Nat) :
    (rawCode p pb i).testBit k = (decide (k < p.bitWidth) && bufBit pb (i * p.bitWidth + k)) := by
  unfold rawCode
  rw [testBit_natOfBits]
  by_cases h : k < p.bitWidth <;> simp [h, List.getD_eq_getElem?_getD]

theorem rawCode_lt (p : Params) (pb : List Byte) (i : Nat) : rawCode p pb i < 2 ^ p.bitWidth := by
  have h := natOfBits_lt ((List.range p.bitWidth).map fun k => bufBit pb (i * p.bitWidth + k))
  simpa [rawCode] using h

@[simp] theorem packCodes_length (p : Params) (codes : List Nat) : (packCodes p codes).length = p.packedSize := by
  simp [packCodes]

@[simp] theorem pack_length (p : Params) (values : List Nat) : (pack p values).length = p.packedSize := by
  simp [pack]

/-- Global bit `g` of a PackedBuffer: the field's bit, or padding 0, or outside the buffer. -/
theorem bufBit_packCodes (p : Params) (codes : List Nat) (g : Nat) :
    bufBit (packCodes p codes) g = packedBit p codes g := by
  unfold bufBit packCodes
  by_cases h : g / 8 < p.packedSize
  · have e : 8 * (g / 8) + g % 8 = g := Nat.div_add_mod g 8
    have hm : g % 8 < 8 := Nat.mod_lt _ (by decide)
    have hb : ((List.range p.packedSize).map fun j => byteOfBits fun m => packedBit p codes (8 * j + m)).getD (g / 8) 0
        = byteOfBits fun m => packedBit p codes (8 * (g / 8) + m) := by
      simp [List.getD_eq_getElem?_getD, h]
    rw [hb, getLsbD_byteOfBits, e]
    simp [hm]
  · have hg : ¬ g < p.n * p.bitWidth := fun hlt => h (p.field_in_packed hlt)
    simp [List.getD_eq_getElem?_getD, h, packedBit, hg]

/-- A field bit of a PackedBuffer is the bit of its code. -/
theorem packedBit_field (p : Params) (codes : List Nat) {i k : Nat} (hi : i < p.n) (hk : k < p.bitWidth) :
    packedBit p codes (i * p.bitWidth + k) = (codes.getD i 0).testBit k := by
  have hlt : i * p.bitWidth + k < p.n * p.bitWidth := by
    have : (i + 1) * p.bitWidth ≤ p.n * p.bitWidth := Nat.mul_le_mul_right _ hi
    rw [Nat.succ_mul] at this
    omega
  have hdiv : (i * p.bitWidth + k) / p.bitWidth = i := by
    rw [Nat.mul_comm, Nat.mul_add_div (by omega), Nat.div_eq_of_lt hk, Nat.add_zero]
  have hmod : (i * p.bitWidth + k) % p.bitWidth = k := by
    rw [Nat.mul_comm, Nat.mul_add_mod, Nat.mod_eq_of_lt hk]
  simp [packedBit, hlt, hdiv, hmod]

/-- Reading a field back gives its code's low BITWIDTH bits. -/
theorem rawCode_packCodes (p : Params) (codes : List Nat) {i : Nat} (hi : i < p.n) :
    rawCode p (packCodes p codes) i = codes.getD i 0 % 2 ^ p.bitWidth := by
  apply Nat.eq_of_testBit_eq
  intro k
  rw [testBit_rawCode, Nat.testBit_mod_two_pow]
  by_cases hk : k < p.bitWidth
  · rw [bufBit_packCodes, packedBit_field p codes hi hk]
  · simp [hk]

@[simp] theorem unpack_length (p : Params) (pb : List Byte) : (unpack p pb).length = p.n := by simp [unpack]

theorem fitsValues_unpack (p : Params) (pb : List Byte) : fitsValues p (unpack p pb) = true := by
  have h : ∀ x, denormalizeCode p x < 2 ^ p.elemWidth := fun x => Nat.mod_lt _ (by positivity)
  simp [fitsValues, fitsElem, unpack, h]

end Sys2Proof.Machine
end

