-- ==== Sys2Proof/Laws/Memory.lean ====
section
/-! SUPPORT. SLOT as memory: what a write changes and leaves, the canonical form is kept, and equal memories are
equal lists. -/

namespace Sys2Proof.Machine

@[simp] theorem Mem.lookup_nil (y : Nat) : Mem.lookup [] y = none := rfl

theorem Mem.lookup_write (m : List Host.Cell) (x : Nat) (v : Byte) (y : Nat) :
    Mem.lookup (Mem.write m x v) y = if y = x then some v else Mem.lookup m y := by
  induction m with
  | nil => simp [Mem.write, Mem.lookup, eq_comm]
  | cons c m ih =>
    obtain ⟨a, b⟩ := c
    unfold Mem.write
    split
    · simp only [Mem.lookup, eq_comm]
    · split
      · rename_i h
        subst h
        by_cases hy : y = x
        · simp [Mem.lookup, hy]
        · simp [Mem.lookup, hy, Ne.symm hy]
      · rename_i h
        simp only [Mem.lookup, ih]
        by_cases hy : y = x
        · simp [hy, Ne.symm h]
        · simp [hy]

@[simp] theorem Mem.lookup_write_same (m : List Host.Cell) (x : Nat) (v : Byte) :
    Mem.lookup (Mem.write m x v) x = some v := by simp [Mem.lookup_write]

theorem Mem.lookup_write_other (m : List Host.Cell) {x y : Nat} (v : Byte) (h : y ≠ x) :
    Mem.lookup (Mem.write m x v) y = Mem.lookup m y := by simp [Mem.lookup_write, h]

theorem Mem.rising_of_lt {lo lo' : Nat} (h : lo' ≤ lo) : ∀ {m : List Host.Cell}, Mem.rising lo m = true →
    Mem.rising lo' m = true
  | [], _ => rfl
  | (a, _) :: _, hm => by
    simp only [Mem.rising, Bool.and_eq_true, decide_eq_true_eq] at hm ⊢
    exact ⟨by omega, hm.2⟩

theorem Mem.rising_write {lo x : Nat} (v : Byte) (hx : lo < x) : ∀ {m : List Host.Cell},
    Mem.rising lo m = true → Mem.rising lo (Mem.write m x v) = true
  | [], _ => by simp [Mem.write, Mem.rising, hx]
  | (a, b) :: m, hm => by
    simp only [Mem.rising, Bool.and_eq_true, decide_eq_true_eq] at hm
    unfold Mem.write
    split
    · simp_all [Mem.rising]
    · split
      · simp_all [Mem.rising]
      · simp only [Mem.rising, Bool.and_eq_true, decide_eq_true_eq]
        exact ⟨hm.1, Mem.rising_write v (by omega) hm.2⟩

/-- Every write keeps the canonical form. -/
theorem Mem.wf_write (m : List Host.Cell) (x : Nat) (v : Byte) (hm : Mem.wf m = true) :
    Mem.wf (Mem.write m x v) = true := by
  cases m with
  | nil => simp [Mem.write, Mem.wf, Mem.rising]
  | cons c m =>
    obtain ⟨a, b⟩ := c
    unfold Mem.write
    split
    · simp_all [Mem.wf, Mem.rising]
    · split
      · rename_i h
        subst h
        exact hm
      · exact Mem.rising_write v (by omega) hm

theorem Mem.lookup_eq_none_of_rising {lo : Nat} : ∀ {m : List Host.Cell}, Mem.rising lo m = true →
    ∀ {y : Nat}, y ≤ lo → Mem.lookup m y = none
  | [], _, _, _ => rfl
  | (a, _) :: m, hm, y, hy => by
    simp only [Mem.rising, Bool.and_eq_true, decide_eq_true_eq] at hm
    have ha : a ≠ y := by omega
    simp only [Mem.lookup, ha, if_false]
    exact Mem.lookup_eq_none_of_rising hm.2 (by omega)

theorem Mem.eq_of_lookup_eq {m n : List Host.Cell} (hm : Mem.wf m = true) (hn : Mem.wf n = true)
    (h : ∀ y, Mem.lookup m y = Mem.lookup n y) : m = n := by
  induction m generalizing n with
  | nil =>
    cases n with
    | nil => rfl
    | cons c n => obtain ⟨a, b⟩ := c; simpa [Mem.lookup] using h a
  | cons c m ih =>
    obtain ⟨a, b⟩ := c
    cases n with
    | nil => simpa [Mem.lookup] using h a
    | cons d n =>
      obtain ⟨a', b'⟩ := d
      have above : ∀ {lo : Nat} {l : List Host.Cell}, Mem.rising lo l = true → Mem.wf l = true := by
        intro lo l hl
        cases l with
        | nil => rfl
        | cons e l =>
          simp only [Mem.rising, Bool.and_eq_true] at hl
          exact hl.2
      have haa : a = a' := by
        rcases Nat.lt_trichotomy a a' with hlt | heq | hgt
        · have h1 := h a
          have hne : a' ≠ a := by omega
          simp only [Mem.lookup, if_true, hne, if_false] at h1
          rw [Mem.lookup_eq_none_of_rising hn (Nat.le_of_lt hlt)] at h1
          cases h1
        · exact heq
        · have h1 := h a'
          have hne : a ≠ a' := by omega
          simp only [Mem.lookup, if_true, hne, if_false] at h1
          rw [Mem.lookup_eq_none_of_rising hm (Nat.le_of_lt hgt)] at h1
          cases h1
      subst haa
      have hbb : b = b' := by simpa [Mem.lookup] using h a
      subst hbb
      congr 1
      refine ih (above hm) (above hn) fun y => ?_
      by_cases hy : y ≤ a
      · rw [Mem.lookup_eq_none_of_rising hm hy, Mem.lookup_eq_none_of_rising hn hy]
      · have hne : a ≠ y := by omega
        simpa [Mem.lookup, hne] using h y

/-- Reading SLOT after a write: the written byte at its offset, every other offset as before. -/
theorem slotByte_putSlot (s : State) (x : Nat) (b : Byte) (y : Nat) :
    (s.putSlot x b).slotByte y = if y = x then b else s.slotByte y := by
  unfold State.slotByte
  rw [State.putSlot_slot, State.putSlot_slotEpoch, Mem.lookup_write]
  split <;> rfl

theorem written_putSlot (s : State) (x : Nat) (b : Byte) (y : Nat) :
    (s.putSlot x b).written y = (decide (y = x) || s.written y) := by
  unfold State.written
  rw [State.putSlot_slot, Mem.lookup_write]
  by_cases h : y = x <;> simp [h]

theorem slotByte_congr {s t : State} (h : t.slot = s.slot) (he : t.slotEpoch = s.slotEpoch) (x : Nat) :
    t.slotByte x = s.slotByte x := by unfold State.slotByte; rw [h, he]

theorem slotBytes_congr {s t : State} (hc : t.cfg = s.cfg) (h : t.slot = s.slot)
    (he : t.slotEpoch = s.slotEpoch) : t.slotBytes = s.slotBytes := by
  unfold State.slotBytes
  rw [hc]
  exact List.map_congr_left fun x _ => slotByte_congr h he x

theorem written_congr {s t : State} (h : t.slot = s.slot) (x : Nat) : t.written x = s.written x := by
  unfold State.written; rw [h]

@[simp] theorem slotBytes_length (s : State) : s.slotBytes.length = s.cfg.regionSize := by
  simp [State.slotBytes]

end Sys2Proof.Machine
end

