-- ==== Sys2Proof/Laws/Operands.lean ====
section
/-! SUPPORT. Loading operands: what comes onto the ports has the ports' types, and results have the types of the
result ports (R24, R26). -/

namespace Sys2Proof.Machine

/-- The ports of a state are typed (R24). -/
def State.portsFit (s : State) (p : Ports) : Prop := p.fit s.cfg.toParams s.cfg.packedSize = true

theorem accept_ok {typed : Bool} {p q : Ports} (h : accept typed p = .ok q) : typed = true ∧ q = p := by
  unfold accept at h
  split at h
  · cases h; exact ⟨‹_›, rfl⟩
  · cases h

/-- Empty ports are typed (R39, log 6). -/
theorem emptyPorts_fit (p : Params) : (emptyPorts p).fit p p.packedSize = true := by
  simp [Ports.fit, emptyPorts, Candidate.fits, fitsElem, fitsValues, fitsPacked, fitsBuffer]

theorem loadArgs_fit {s : State} {a : Args} {p : Ports} (h : loadArgs s a = .ok p) : s.portsFit p := by
  have hs := emptyPorts_fit s.cfg.toParams
  unfold State.portsFit Ports.fit at *
  simp only [Bool.and_eq_true] at hs ⊢
  obtain ⟨⟨⟨⟨h1, h2⟩, h3⟩, h4⟩, h5⟩ := hs
  cases a <;> simp only [loadArgs] at h
  case none => cases h; exact ⟨⟨⟨⟨h1, h2⟩, h3⟩, h4⟩, h5⟩
  case candidate c =>
    obtain ⟨hc, rfl⟩ := accept_ok h
    exact ⟨⟨⟨⟨hc, h2⟩, h3⟩, h4⟩, h5⟩
  case buffer b n =>
    split at h
    · obtain ⟨hc, rfl⟩ := accept_ok h
      exact ⟨⟨⟨⟨h1, h2⟩, h3⟩, h4⟩, hc⟩
    · cases h
    · cases h
  all_goals
    split at h
    · cases h
    · first
      | (obtain ⟨hc, rfl⟩ := accept_ok h
         first
         | exact ⟨⟨⟨⟨h1, hc⟩, h3⟩, h4⟩, h5⟩
         | exact ⟨⟨⟨⟨h1, h2⟩, hc⟩, h4⟩, h5⟩
         | exact ⟨⟨⟨⟨h1, h2⟩, h3⟩, hc⟩, h5⟩)
      | (cases h; exact ⟨⟨⟨⟨h1, h2⟩, h3⟩, h4⟩, h5⟩)

theorem loadOperands_fit {i : Instr} {s : State} {a : Args} {p : Ports} (h : loadOperands i a s = .ok p) :
    s.portsFit p := by
  unfold loadOperands at h
  split at h
  · exact loadArgs_fit h
  · cases h

theorem loadInput_fit {i : Instr} {s : State} {x : EnvInput} {p : Ports} (h : loadInput i x s = .ok p) :
    s.portsFit p := by
  unfold loadInput at h
  split at h
  · cases h
    cases x <;> exact emptyPorts_fit _
  · cases h

/-- The values the empty ports hold, written out, load to empty ports (log 5). -/
theorem loadOperands_placed {i : Instr} (hc : i.isEvent = false) (s : State) :
    loadOperands i (placedArgs s.cfg.toParams i.shape) s = .ok (emptyPorts s.cfg.toParams) := by
  have he : fitsElem s.cfg.toParams 0 = true := by simp [fitsElem]
  have hv : fitsValues s.cfg.toParams (emptyPorts s.cfg.toParams).values = true := by
    simp [emptyPorts, fitsValues, fitsElem]
  have hp : fitsPacked s.cfg.packedSize (emptyPorts s.cfg.toParams).pb = true := by simp [emptyPorts, fitsPacked]
  cases i <;> first
    | (cases hc; done)
    | rfl
    | (simp only [loadOperands, Args.hasShape, Instr.shape, placedArgs, loadArgs, resolve, accept, he, hv, hp]; rfl)

theorem loadInput_placed {i : Instr} (he : i.isEvent = true) (s : State) :
    loadInput i (placedInput i.shape) s = .ok (emptyPorts s.cfg.toParams) := by
  cases i <;> first | (cases he; done) | rfl

theorem Results.fit_empty (p : Params) : Results.fit p {} := by simp [Results.fit]

/-- The results of a pure operation have their types (R24, R26). -/
theorem exec_pure_fit {i : Instr} (h : i.isPure = true) (s : State) :
    ∃ r : Results, exec i s = .next (s.answer r) ∧ r.fit s.cfg.toParams := by
  cases i <;> try (cases h; done)
  case pack => exact ⟨_, rfl, by simp [Results.fit]⟩
  case unpack => exact ⟨_, rfl, by simp [Results.fit, fitsValues_unpack]⟩
  case deserialize =>
    refine ⟨_, rfl, ?_⟩
    unfold deserialize
    split
    · simp [Results.fit, deserializeResults]
    · split
      · simp [Results.fit, deserializeResults]
      · simp [Results.fit, deserializeResults, fitsValues_unpack]
  all_goals exact ⟨_, rfl, by simp [Results.fit]⟩

theorem execAvailable_fit (s : State) :
    Results.fit s.cfg.toParams { byteCount := some (byteCountOf s.cfg.regionSize s.rdy) } := by
  cases h : s.rdy <;> simp [Results.fit, byteCountOf]

end Sys2Proof.Machine
end

