-- ==== Sys2Proof/Laws/Exec.lean ====
section
/-! SUPPORT. Everything a meaning, a READ step and a line can do, said once: if it answers a next state, then one of
these. Later proofs cite these lemmas and do not unfold the machine. -/

namespace Sys2Proof.Machine

/-- A pure operation answers results and changes nothing else (R13). -/
theorem exec_pure {i : Instr} (h : i.isPure = true) (s : State) : ∃ r : Results, exec i s = .next (s.answer r) := by
  cases i <;> first | exact ⟨_, rfl⟩ | cases h

theorem execSerialize_next {s t : State} (h : execSerialize s = .next t) :
    s.hostBusy = false ∧ t = s.startSerialize := by
  unfold execSerialize at h
  split at h
  · cases h
  · rename_i hb
    cases h
    exact ⟨by simpa using hb, rfl⟩

theorem execRead_next {s t : State} (h : execRead s = .next t) :
    (s.ports.expectedLength ≠ s.cfg.regionSize ∧ t = s.answer { bytesRead := some 0 }) ∨
    (s.ports.expectedLength = s.cfg.regionSize ∧ s.rdPhase = .idle ∧ s.serPhase = .idle ∧
      t = { s.clearResults with rdPhase := .wait }) := by
  unfold execRead at h
  split at h
  · cases h; exact .inl ⟨‹_›, rfl⟩
  · split at h
    · cases h
    · split at h
      · cases h
      · cases h
        exact .inr ⟨not_not.1 ‹_›, not_not.1 ‹_›, not_not.1 ‹_›, rfl⟩

theorem execEngByte_next {s t : State} (h : execEngByte s = .next t) :
    s.widx < s.cfg.regionSize ∧ t = s.engineStore s.ports.lineByte := by
  unfold execEngByte State.inRegion at h
  split at h
  · rename_i hr
    cases h
    exact ⟨by simpa using hr, rfl⟩
  · cases h

theorem State.handlerEnabled_iff (s : State) :
    s.handlerEnabled = true ↔ s.im = false ∧ (s.tc = true ∨ s.te = true) := by
  simp [State.handlerEnabled, State.irq]

theorem execHandler_next {s t : State} (h : execHandler s = .next t) :
    s.im = false ∧ ((s.te = true ∧ t = s.setTe false) ∨
      (s.te = false ∧ s.tc = true ∧ t = (s.setTc false).setRdy .full)) := by
  unfold execHandler at h
  split at h
  · rename_i he
    rw [State.handlerEnabled_iff] at he
    refine ⟨he.1, ?_⟩
    cases h
    unfold State.returnFromHandler State.takeCompletionSignal
    split
    · exact .inl ⟨‹_›, rfl⟩
    · rename_i hte
      refine .inr ⟨by simpa using hte, ?_, rfl⟩
      rcases he.2 with h1 | h1
      · exact h1
      · exact absurd h1 hte
  · cases h

/-- SERIALIZE ends after a short payload write when the digest is never written after one (R160, R162). -/
theorem State.afterPayload_stops {s : State} {w1 : Nat} (h1 : w1 ≠ s.cfg.packedSize)
    (h2 : s.cfg.digestAfterShort = .never) :
    s.afterPayload w1 = s.endSerialize.returnOk false w1 := by
  simp [State.afterPayload, h1, h2]

/-- Otherwise the digest write is next. -/
theorem State.afterPayload_goes {s : State} {w1 : Nat}
    (h : ¬(w1 ≠ s.cfg.packedSize ∧ s.cfg.digestAfterShort = .never)) :
    s.afterPayload w1 =
      { s with serPhase := .writeDigest, serW1 := w1, res := { bytesWritten := some w1 } } := by
  unfold State.afterPayload; rw [if_neg h]

theorem execSinkWrite_next {s t : State} (h : execSinkWrite s = .next t) :
    (s.serPhase = .writePayload ∧ s.ports.sinkCount ≤ s.cfg.packedSize ∧
      t = (s.appendSink (s.serPb.take s.ports.sinkCount)).afterPayload s.ports.sinkCount) ∨
    (s.serPhase = .writeDigest ∧ s.ports.sinkCount ≤ s.cfg.digestSize ∧
      t = (s.appendSink ([s.serDigest].take s.ports.sinkCount)).afterDigest s.ports.sinkCount) := by
  unfold execSinkWrite at h
  split at h
  · cases h
  · split at h
    · cases h; exact .inl ⟨‹_›, ‹_›, rfl⟩
    · cases h
  · split at h
    · cases h; exact .inr ⟨‹_›, ‹_›, rfl⟩
    · cases h

/-- Everything one HOST step of a READ in progress can do (R184 to R188). -/
theorem readStep_next {s t : State} (h : readStep s = .next t) :
    (s.rdPhase = .wait ∧ s.rdy = .idle ∧ t = s) ∨
    (s.rdPhase = .wait ∧ s.rdy = .full ∧ t = { s with rdPhase := .mask }) ∨
    (s.rdPhase = .mask ∧ t = readMask s) ∨
    (s.rdPhase = .copy ∧ s.cfg.copyGranularity = .byte ∧ s.rdK < s.cfg.regionSize ∧ t = readCopyByte s) ∨
    (s.rdPhase = .copy ∧ s.cfg.copyGranularity = .frame ∧ t = readCopyFrame s) ∨
    (s.rdPhase = .resample ∧ t = readResample s) ∨
    (s.rdPhase = .unmask ∧ t = readUnmask s) := by
  unfold readStep State.inRegion at h
  cases hp : s.rdPhase <;> simp only [hp] at h
  · cases h
  · cases h
    cases hr : s.rdy
    · exact .inl ⟨rfl, rfl, by simp [readWait, hr]⟩
    · exact .inr (.inl ⟨rfl, rfl, by simp [readWait, hr]⟩)
  · cases h; exact .inr (.inr (.inl ⟨rfl, rfl⟩))
  · cases hg : s.cfg.copyGranularity <;> simp only [hg] at h
    · split at h
      · rename_i hr
        cases h
        exact .inr (.inr (.inr (.inl ⟨rfl, rfl, by simpa using hr, rfl⟩)))
      · cases h
    · cases h; exact .inr (.inr (.inr (.inr (.inl ⟨rfl, rfl, rfl⟩))))
  · cases h; exact .inr (.inr (.inr (.inr (.inr (.inl ⟨rfl, rfl⟩)))))
  · cases h; exact .inr (.inr (.inr (.inr (.inr (.inr ⟨rfl, rfl⟩)))))

/-- The only fault of a READ step: a copy index outside the region. -/
theorem readStep_fault {s : State} {f : Fault} (h : readStep s = .fault f) :
    s.rdPhase = .copy ∧ s.cfg.regionSize ≤ s.rdK := by
  unfold readStep State.inRegion at h
  cases hp : s.rdPhase <;> simp only [hp] at h
  all_goals first | cases h | skip
  cases hg : s.cfg.copyGranularity <;> simp only [hg] at h
  · split at h
    · cases h
    · rename_i hr
      exact ⟨rfl, by simpa using hr⟩
  · cases h

/-- The only fault of an operation: ENG_BYTE at an index outside the region. -/
theorem exec_fault {i : Instr} {s : State} {f : Fault} (h : exec i s = .fault f) :
    i = .engByte ∧ s.cfg.regionSize ≤ s.widx := by
  cases i <;> simp only [exec] at h
  case engByte =>
    unfold execEngByte State.inRegion at h
    split at h
    · cases h
    · rename_i hr
      exact ⟨rfl, by simpa using hr⟩
  case serialize => unfold execSerialize at h; split at h <;> cases h
  case read => unfold execRead at h; split at h <;> [skip; (split at h <;> [skip; split at h])] <;> cases h
  case handler => unfold execHandler at h; split at h <;> cases h
  case sinkWrite => unfold execSinkWrite at h; split at h <;> [skip; split at h; split at h] <;> cases h
  all_goals cases h

theorem State.hostBusy_eq_false (s : State) : s.hostBusy = false ↔ s.rdPhase = .idle ∧ s.serPhase = .idle := by
  simp [State.hostBusy]

/-- The code of an operation selects it. -/
@[simp] theorem decodeCode_encodeCode (i : Instr) : decodeCode (encodeCode i) = some i := by cases i <;> decide

theorem deserialize_short {p : Params} {bytes : List Byte} {length : Nat} (h : length < p.frameSize) :
    deserialize p bytes length = .error .shortFrame := by
  unfold deserialize; rw [if_pos h]

theorem deserialize_mismatch {p : Params} {bytes : List Byte} {length : Nat} (h : p.frameSize ≤ length)
    (hd : calculate p (bytes.take p.packedSize) ≠ bytes.getD p.packedSize 0) :
    deserialize p bytes length = .error .digestMismatch := by
  unfold deserialize; rw [if_neg (by omega), if_pos hd]

theorem deserialize_match {p : Params} {bytes : List Byte} {length : Nat} (h : p.frameSize ≤ length)
    (hd : calculate p (bytes.take p.packedSize) = bytes.getD p.packedSize 0) :
    deserialize p bytes length = .ok (unpack p (bytes.take p.packedSize)) := by
  unfold deserialize; rw [if_neg (by omega), if_neg (not_not.2 hd)]

/-- A command whose operands load, with HOST idle, is exec of its operation. -/
theorem runCommand_loaded {i : Instr} {args : Args} {s : State} {p : Ports} (he : i.isEvent = false)
    (hb : s.hostBusy = false) (hp : loadOperands i args s = .ok p) :
    runCommand (encodeCode i) args s = exec i { s with ports := p } := by
  simp [runCommand, he, hb, hp]

/-- An event whose input loads is exec of its operation. -/
theorem runEvent_loaded {i : Instr} {input : EnvInput} {s : State} {p : Ports} (he : i.isEvent = true)
    (hp : loadInput i input s = .ok p) :
    runEvent (encodeCode i) input s = exec i { s with ports := p } := by
  simp [runEvent, he, hp]

/-- A step's next state is its agent's, with the ports emptied (R24). -/
theorem endStep_next {o : Host.Outcome State Fault Refusal} {t : State} (h : endStep o = .next t) :
    ∃ u, o = .next u ∧ t = u.closePorts := by
  cases o <;> cases h
  exact ⟨_, rfl, rfl⟩

theorem endStep_fault {o : Host.Outcome State Fault Refusal} {f : Fault} (h : endStep o = .fault f) :
    o = .fault f := by
  cases o <;> cases h
  rfl

/-- Emptying the ports of a state whose ports hold nothing changes nothing. -/
theorem closePorts_eq {s : State} (hp : s.ports = emptyPorts s.cfg.toParams) (hr : s.res = {}) :
    s.closePorts = s := by
  unfold State.closePorts; rw [← hp, ← hr]

/-- A line's next state, from what its agent does. -/
theorem runLine_of_takeTurn {l : ScriptLine} {s t : State} (h : takeTurn l s = .next t) :
    runLine l s = .next t.closePorts := by
  unfold runLine; rw [h]; rfl

/-- A command line whose operands load, with HOST idle, runs its operation. -/
theorem runLine_command {i : Instr} {args : Args} {s : State} {p : Ports} (he : i.isEvent = false)
    (hb : s.hostBusy = false) (hp : loadOperands i args s = .ok p) :
    runLine (.command (encodeCode i) args) s = endStep (exec i { s with ports := p }) :=
  congrArg endStep (runCommand_loaded he hb hp)

/-- An event line whose input loads runs its event. -/
theorem runLine_event {i : Instr} {input : EnvInput} {s : State} {p : Ports} (he : i.isEvent = true)
    (hp : loadInput i input s = .ok p) :
    runLine (.event (encodeCode i) input) s = endStep (exec i { s with ports := p }) :=
  congrArg endStep (runEvent_loaded he hp)

/-- A command that takes a step: the operation, and its operands loaded. -/
theorem runCommand_cases {code : Byte} {args : Args} {s : State} {o : Host.Outcome State Fault Refusal}
    (h : runCommand code args s = o) :
    (∃ r, o = .refused r) ∨
    (∃ i p, decodeCode code = some i ∧ i.isEvent = false ∧ s.hostBusy = false ∧
      loadOperands i args s = .ok p ∧ o = exec i { s with ports := p }) := by
  unfold runCommand at h
  split at h
  · exact .inl ⟨_, h.symm⟩
  · rename_i i hd
    split at h
    · exact .inl ⟨_, h.symm⟩
    · rename_i he
      split at h
      · exact .inl ⟨_, h.symm⟩
      · rename_i hb
        split at h
        · exact .inl ⟨_, h.symm⟩
        · rename_i p hp
          exact .inr ⟨i, p, hd, by simpa using he, by simpa using hb, hp, h.symm⟩

/-- An event that takes a step: the operation, and its input loaded. -/
theorem runEvent_cases {code : Byte} {input : EnvInput} {s : State} {o : Host.Outcome State Fault Refusal}
    (h : runEvent code input s = o) :
    (∃ r, o = .refused r) ∨
    (∃ i p, decodeCode code = some i ∧ i.isEvent = true ∧
      loadInput i input s = .ok p ∧ o = exec i { s with ports := p }) := by
  unfold runEvent at h
  split at h
  · exact .inl ⟨_, h.symm⟩
  · rename_i i hd
    split at h
    · rename_i he
      split at h
      · exact .inl ⟨_, h.symm⟩
      · rename_i p hp
        exact .inr ⟨i, p, hd, he, hp, h.symm⟩
    · exact .inl ⟨_, h.symm⟩

/-- Everything a line can do that answers a next state: a host command other than READ and SERIALIZE answers; READ or
SERIALIZE starts; a READ goes on; one of the five events happens. `p` is what was loaded on the ports, which
`runLine_next` empties. -/
inductive LineDoes (line : ScriptLine) (s t : State) : Prop where
  | answers (p : Ports) (r : Results) (fit : r.fit s.cfg.toParams)
      (busy : s.hostBusy = false) (notStep : line ≠ .readStep)
      (notEvent : ∀ i, isEventOf i line = false)
      (eq : t = ({ s with ports := p } : State).answer r)
  | starts (p : Ports) (busy : s.hostBusy = false) (notStep : line ≠ .readStep)
      (notEvent : ∀ i, isEventOf i line = false)
      (eq : t = ({ s with ports := p } : State).startSerialize)
  | waits (p : Ports) (busy : s.hostBusy = false) (notStep : line ≠ .readStep)
      (notEvent : ∀ i, isEventOf i line = false)
      (eq : t = { ({ s with ports := p } : State).clearResults with rdPhase := .wait })
  | reads (isStep : line = .readStep) (eq : readStep s = .next t)
  | stores (p : Ports) (ev : isEventOf .engByte line = true) (room : s.widx < s.cfg.regionSize)
      (eq : t = ({ s with ports := p } : State).engineStore p.lineByte)
  | errs (p : Ports) (ev : isEventOf .engError line = true) (eq : t = ({ s with ports := p } : State).setTe true)
  | drops (p : Ports) (ev : isEventOf .handler line = true) (im : s.im = false) (te : s.te = true)
      (eq : t = ({ s with ports := p } : State).setTe false)
  | completes (p : Ports) (ev : isEventOf .handler line = true) (im : s.im = false) (te : s.te = false)
      (tc : s.tc = true) (eq : t = (({ s with ports := p } : State).setTc false).setRdy .full)
  | payload (p : Ports) (ev : isEventOf .sinkWrite line = true) (ph : s.serPhase = .writePayload)
      (le : p.sinkCount ≤ s.cfg.packedSize)
      (eq : t = (({ s with ports := p } : State).appendSink (s.serPb.take p.sinkCount)).afterPayload p.sinkCount)
  | digest (p : Ports) (ev : isEventOf .sinkWrite line = true) (ph : s.serPhase = .writeDigest)
      (le : p.sinkCount ≤ s.cfg.digestSize)
      (eq : t = (({ s with ports := p } : State).appendSink ([s.serDigest].take p.sinkCount)).afterDigest p.sinkCount)
  | resets (p : Ports) (ev : isEventOf .reset line = true) (eq : execReset { s with ports := p } = .next t)

theorem takeTurn_next {line : ScriptLine} {s t : State} (h : takeTurn line s = .next t) : LineDoes line s t := by
  cases line with
  | readStep => exact .reads rfl h
  | command code args =>
    rcases runCommand_cases h with ⟨r, hr⟩ | ⟨i, p, hd, he, hb, hp, hx⟩
    · cases hr
    · have ne : (ScriptLine.command code args) ≠ .readStep := by simp
      have ev : ∀ j, isEventOf j (ScriptLine.command code args) = false := fun _ => rfl
      by_cases hpure : i.isPure = true
      · obtain ⟨r, hr, fit⟩ := exec_pure_fit hpure { s with ports := p }
        rw [hr] at hx
        cases hx
        exact .answers p r fit hb ne ev rfl
      · cases i <;> try first | (cases he; done) | exact absurd rfl hpure
        case serialize => exact .starts p hb ne ev (execSerialize_next hx.symm).2
        case read =>
          rcases execRead_next hx.symm with ⟨_, ht⟩ | ⟨_, _, _, ht⟩
          · exact .answers p _ (by simp [Results.fit]) hb ne ev ht
          · exact .waits p hb ne ev ht
        case available =>
          cases hx
          exact .answers p _ (execAvailable_fit _) hb ne ev rfl
  | event code input =>
    rcases runEvent_cases h with ⟨r, hr⟩ | ⟨i, p, hd, he, hp, hx⟩
    · cases hr
    · have ev : isEventOf i (ScriptLine.event code input) = true := by simp [isEventOf, hd]
      cases i <;> try (cases he; done)
      case engByte => exact .stores p ev (execEngByte_next hx.symm).1 (execEngByte_next hx.symm).2
      case engError => cases hx; exact .errs p ev rfl
      case handler =>
        obtain ⟨im, ⟨te, ht⟩ | ⟨te, tc, ht⟩⟩ := execHandler_next hx.symm
        · exact .drops p ev im te ht
        · exact .completes p ev im te tc ht
      case sinkWrite =>
        rcases execSinkWrite_next hx.symm with ⟨ph, le, ht⟩ | ⟨ph, le, ht⟩
        · exact .payload p ev ph le ht
        · exact .digest p ev ph le ht
      case reset => exact .resets p ev hx.symm

/-- Everything a line can do: what its agent does, then the ports are emptied. -/
theorem runLine_next {line : ScriptLine} {s t : State} (h : runLine line s = .next t) :
    ∃ u, LineDoes line s u ∧ t = u.closePorts := by
  obtain ⟨u, hu, rfl⟩ := endStep_next h
  exact ⟨u, takeTurn_next hu, rfl⟩

/-- The only faults of a line are accesses outside SLOT. -/
theorem runLine_fault {line : ScriptLine} {s : State} {f : Fault} (h : runLine line s = .fault f) :
    (s.rdPhase = .copy ∧ s.cfg.regionSize ≤ s.rdK) ∨ s.cfg.regionSize ≤ s.widx := by
  replace h := endStep_fault h
  cases line with
  | readStep => exact .inl (readStep_fault h)
  | command code args =>
    rcases runCommand_cases h with ⟨r, hr⟩ | ⟨i, p, _, _, _, _, hx⟩
    · cases hr
    · exact .inr (exec_fault hx.symm).2
  | event code input =>
    rcases runEvent_cases h with ⟨r, hr⟩ | ⟨i, p, _, _, _, hx⟩
    · cases hr
    · exact .inr (exec_fault hx.symm).2

/-- A script run in two parts. -/
theorem runLines_append (l1 l2 : List ScriptLine) (s : State) :
    runLines (l1 ++ l2) s =
      match runLines l1 s with
      | .next t => runLines l2 t
      | .fault f => .fault f
      | .refused r => .refused r := by
  induction l1 generalizing s with
  | nil => rfl
  | cons l l1 ih =>
    simp only [List.cons_append, runLines]
    cases runLine l s <;> simp [ih]

theorem runLines_append_next {l1 l2 : List ScriptLine} {s t : State} (h : runLines l1 s = .next t) :
    runLines (l1 ++ l2) s = runLines l2 t := by rw [runLines_append, h]

theorem runLines_cons_next {l : ScriptLine} {ls : List ScriptLine} {s t : State} (h : runLine l s = .next t) :
    runLines (l :: ls) s = runLines ls t := by simp [runLines, h]

theorem runLines_one {l : ScriptLine} {s t : State} (h : runLine l s = .next t) : runLines [l] s = .next t := by
  rw [runLines_cons_next h]; rfl

theorem runLine_readStep {s t : State} (h : readStep s = .next t) : runLine .readStep s = .next t.closePorts :=
  runLine_of_takeTurn (l := .readStep) h

theorem runLines_step_next {ls : List ScriptLine} {s t : State} (h : readStep s = .next t) :
    runLines (.readStep :: ls) s = runLines ls t.closePorts := runLines_cons_next (runLine_readStep h)

theorem runLines_append_cases {l1 l2 : List ScriptLine} {s t : State} (h : runLines (l1 ++ l2) s = .next t) :
    ∃ u, runLines l1 s = .next u ∧ runLines l2 u = .next t := by
  rw [runLines_append] at h
  cases h1 : runLines l1 s <;> rw [h1] at h
  · exact ⟨_, rfl, h⟩
  · cases h
  · cases h

theorem runLines_cons_cases {l : ScriptLine} {ls : List ScriptLine} {s t : State}
    (h : runLines (l :: ls) s = .next t) : ∃ u, runLine l s = .next u ∧ runLines ls u = .next t := by
  simp only [runLines] at h
  cases h1 : runLine l s <;> rw [h1] at h
  · exact ⟨_, rfl, h⟩
  · cases h
  · cases h

end Sys2Proof.Machine
end

