-- ==== Sys2Proof/Laws/Lines.lean ====
section
/-! SUPPORT. What single lines of a script do, and FEED (R96, R97): each line's next state, said once. -/

namespace Sys2Proof.Machine

/-- What the ports carried is forgotten at the end of a step. -/
theorem afterPayload_closePorts {s : State} (p : Ports) (w : Nat) :
    (({ s with ports := p } : State).afterPayload w).closePorts = (s.afterPayload w).closePorts := by
  by_cases h : w ≠ s.cfg.packedSize ∧ s.cfg.digestAfterShort = .never
  · rw [State.afterPayload_stops (s := { s with ports := p }) h.1 h.2, State.afterPayload_stops h.1 h.2]; rfl
  · rw [State.afterPayload_goes (s := { s with ports := p }) h, State.afterPayload_goes h]; rfl

theorem engineStore_closePorts {s : State} (p : Ports) (b : Byte) :
    (({ s with ports := p } : State).engineStore b).closePorts = (s.engineStore b).closePorts := by
  unfold State.engineStore
  show State.closePorts (if s.widx + 1 = s.cfg.regionSize then _ else _) = State.closePorts (if _ then _ else _)
  split <;> rfl

/-- `SEND values` of typed values takes SERIALIZE's first step. -/
theorem runLine_send {s : State} {vs : List Nat} (hb : s.hostBusy = false)
    (hv : fitsValues s.cfg.toParams vs = true) :
    runLine (.command (encodeCode .serialize) (.values (.lit vs))) s = .next { s with
      ports := emptyPorts s.cfg.toParams
      res := {}
      serPhase := .writePayload
      serPb := pack s.cfg.toParams vs
      serDigest := calculate s.cfg.toParams (pack s.cfg.toParams vs)
      serW1 := 0 } := by
  have hb' : ∀ p, ({ s with ports := p } : State).hostBusy = false := fun _ => hb
  rw [runLine_command (p := { emptyPorts s.cfg.toParams with values := vs }) rfl hb
    (by simp [loadOperands, Args.hasShape, Instr.shape, loadArgs, resolve, accept, hv])]
  simp only [exec, execSerialize, hb']
  rfl

/-- The sink's answer to the payload write. -/
theorem runLine_sinkAnswers_payload {s : State} {w : Nat} (hp : s.serPhase = .writePayload)
    (hw : w ≤ s.cfg.packedSize) :
    runLine (sinkAnswers w) s = .next ((s.appendSink (s.serPb.take w)).afterPayload w).closePorts := by
  rw [sinkAnswers, runLine_event (p := { emptyPorts s.cfg.toParams with sinkCount := w }) rfl rfl]
  simp only [exec, execSinkWrite, hp, hw, if_true]
  exact congrArg Host.Outcome.next (afterPayload_closePorts (s := s.appendSink (s.serPb.take w)) _ w)

/-- The sink's answer to the digest write. -/
theorem runLine_sinkAnswers_digest {s : State} {w : Nat} (hp : s.serPhase = .writeDigest)
    (hw : w ≤ s.cfg.digestSize) :
    runLine (sinkAnswers w) s = .next ((s.appendSink ([s.serDigest].take w)).afterDigest w).closePorts := by
  rw [sinkAnswers, runLine_event (p := { emptyPorts s.cfg.toParams with sinkCount := w }) rfl rfl]
  simp only [exec, execSinkWrite, hp, hw, if_true]
  rfl

/-- One byte on the line. -/
theorem runLine_engByte {s : State} {b : Byte} (h : s.widx < s.cfg.regionSize) :
    runLine (.event (encodeCode .engByte) (.lineByte b)) s = .next (s.engineStore b).closePorts := by
  rw [runLine_event (p := { emptyPorts s.cfg.toParams with lineByte := b }) rfl rfl]
  simp only [exec, execEngByte, State.inRegion, h, decide_true, if_true]
  exact congrArg Host.Outcome.next (engineStore_closePorts _ b)

/-- HANDLER's completion path as a line. -/
theorem runLine_handler_completes {s : State} (him : s.im = false) (hte : s.te = false) (htc : s.tc = true) :
    runLine handlerRuns s = .next { s with
      tc := false, rdy := .full, ports := emptyPorts s.cfg.toParams, res := {} } := by
  rw [handlerRuns, runLine_event (p := emptyPorts s.cfg.toParams) rfl rfl]
  simp [exec, execHandler, State.handlerEnabled, State.irq, him, hte, htc, State.returnFromHandler,
    State.takeCompletionSignal, State.setTc, State.setRdy, endStep, State.closePorts]

/-- READ of the region's size, issued with HOST idle, starts its wait. -/
theorem runLine_read {s : State} (hb : s.hostBusy = false) :
    runLine (.command (encodeCode .read) (.expected (.lit s.cfg.regionSize))) s =
      .next { s with ports := emptyPorts s.cfg.toParams, res := {}, rdPhase := .wait } := by
  obtain ⟨h1, h2⟩ := s.hostBusy_eq_false.1 hb
  rw [runLine_command (p := { emptyPorts s.cfg.toParams with expectedLength := s.cfg.regionSize }) rfl hb rfl]
  simp [exec, execRead, h1, h2, State.clearResults, endStep, State.closePorts]

/-- A DESERIALIZE command on a literal buffer. -/
theorem runLine_deserialize {s : State} {bytes : List Byte} {length : Nat} (hb : s.hostBusy = false)
    (hl : length ≤ bytes.length) :
    runLine (.command (encodeCode .deserialize) (.buffer (.lit bytes) (.lit length))) s =
      .next (s.answer (deserializeResults (deserialize s.cfg.toParams bytes length))).closePorts := by
  rw [runLine_command (p := { emptyPorts s.cfg.toParams with bytes := bytes, length := length }) rfl hb
    (by simp [loadOperands, Args.hasShape, Instr.shape, loadArgs, resolve, accept, fitsBuffer, hl])]
  rfl

/-- The engine's step changes none of these. -/
theorem engineStore_frame (s : State) (b : Byte) :
    (s.engineStore b) = { s with
      slot := (s.engineStore b).slot, widx := (s.engineStore b).widx, tc := (s.engineStore b).tc } := by
  unfold State.engineStore; split <;> rfl

theorem engineStore_slotByte (s : State) (b : Byte) (x : Nat) :
    (s.engineStore b).slotByte x = if x = s.widx then b else s.slotByte x := by
  rw [← slotByte_putSlot]
  refine slotByte_congr ?_ ?_ x <;> unfold State.engineStore <;> split <;> rfl

theorem engineStore_written (s : State) (b : Byte) (x : Nat) :
    (s.engineStore b).written x = (decide (x = s.widx) || s.written x) := by
  rw [← written_putSlot]
  exact written_congr (by unfold State.engineStore; split <;> rfl) x

theorem engineStore_wraps {s : State} (b : Byte) (h : s.widx + 1 = s.cfg.regionSize) :
    (s.engineStore b).widx = 0 ∧ (s.engineStore b).tc = true := by
  unfold State.engineStore; rw [if_pos h]; exact ⟨rfl, rfl⟩

theorem engineStore_advances {s : State} (b : Byte) (h : s.widx + 1 ≠ s.cfg.regionSize) :
    (s.engineStore b).widx = s.widx + 1 ∧ (s.engineStore b).tc = s.tc := by
  unfold State.engineStore; rw [if_neg h]; exact ⟨rfl, rfl⟩

/-- `FEED bytes` within one period: the bytes stand from the engine's index on, every other byte reads as before, and
the engine wraps with TC set exactly when the period is complete (R97, R195). -/
theorem runLines_feed (bytes : List Byte) (s : State) (h : s.widx + bytes.length ≤ s.cfg.regionSize) :
    ∃ t : State, runLines (feed bytes) s = .next t ∧
      t = { s with slot := t.slot, widx := t.widx, tc := t.tc, ports := t.ports, res := t.res } ∧
      (∀ x, t.slotByte x =
        if s.widx ≤ x ∧ x < s.widx + bytes.length then bytes.getD (x - s.widx) 0 else s.slotByte x) ∧
      (s.widx + bytes.length < s.cfg.regionSize → t.widx = s.widx + bytes.length ∧ t.tc = s.tc) ∧
      (bytes ≠ [] → s.widx + bytes.length = s.cfg.regionSize → t.widx = 0 ∧ t.tc = true) := by
  induction bytes generalizing s with
  | nil => exact ⟨s, rfl, rfl, fun x => by simp, fun _ => ⟨rfl, rfl⟩, fun h => absurd rfl h⟩
  | cons b bytes ih =>
    simp only [List.length_cons] at h ⊢
    have h1 := runLine_engByte (s := s) (b := b) (by omega)
    have hf : feed (b :: bytes) = .event (encodeCode .engByte) (.lineByte b) :: feed bytes := rfl
    rw [hf, runLines_cons_next h1]
    have efr : (s.engineStore b).closePorts = { s with
        slot := (s.engineStore b).slot, widx := (s.engineStore b).widx, tc := (s.engineStore b).tc
        ports := emptyPorts (s.engineStore b).cfg.toParams, res := {} } := by
      unfold State.closePorts; rw [engineStore_frame]
    have esb : ∀ x, (s.engineStore b).closePorts.slotByte x = if x = s.widx then b else s.slotByte x :=
      engineStore_slotByte s b
    have eg : _ → (s.engineStore b).closePorts.widx = 0 ∧ (s.engineStore b).closePorts.tc = true :=
      engineStore_wraps (s := s) b
    have ea : _ → (s.engineStore b).closePorts.widx = s.widx + 1 ∧ (s.engineStore b).closePorts.tc = s.tc :=
      engineStore_advances (s := s) b
    replace efr : (s.engineStore b).closePorts = { s with
        slot := (s.engineStore b).closePorts.slot, widx := (s.engineStore b).closePorts.widx
        tc := (s.engineStore b).closePorts.tc, ports := (s.engineStore b).closePorts.ports, res := {} } := efr
    generalize (s.engineStore b).closePorts = s2 at *
    have ec2 : s2.cfg = s.cfg := by rw [efr]
    by_cases hw : s.widx + 1 = s.cfg.regionSize
    · have hnil : bytes = [] := List.eq_nil_of_length_eq_zero (by omega)
      subst hnil
      obtain ⟨w0, t1⟩ := eg hw
      refine ⟨s2, rfl, ?_, ?_, fun hlt => ?_, fun _ _ => ⟨w0, t1⟩⟩
      · rw [efr]
      · intro x
        rw [esb]
        by_cases hx : x = s.widx
        · simp [hx]
        · rw [if_neg hx, if_neg (by simp only [List.length_nil]; omega)]
      · simp at hlt; omega
    · obtain ⟨w1, t1⟩ := ea hw
      obtain ⟨t, ht, hfr, hsb, hlt, hge⟩ := ih s2 (by rw [w1, ec2]; omega)
      refine ⟨t, ht, ?_, ?_, ?_, ?_⟩
      · rw [hfr, efr]
      · intro x
        rw [hsb, esb, w1]
        by_cases hx : x = s.widx
        · subst hx; simp
        · by_cases hin : s.widx + 1 ≤ x ∧ x < s.widx + 1 + bytes.length
          · have h2 : s.widx ≤ x ∧ x < s.widx + (bytes.length + 1) := by omega
            have h3 : x - s.widx = (x - (s.widx + 1)) + 1 := by omega
            simp only [hin, h2, and_self, if_true, h3, List.getD_cons_succ]
          · have h2 : ¬(s.widx ≤ x ∧ x < s.widx + (bytes.length + 1)) := by omega
            simp only [hin, h2, hx, if_false]
      · intro hl
        obtain ⟨a, c⟩ := hlt (by rw [w1, ec2]; omega)
        exact ⟨by rw [a, w1]; omega, by rw [c, t1]⟩
      · intro _ he
        by_cases hnil : bytes = []
        · subst hnil; simp at he; omega
        · exact hge hnil (by rw [w1, ec2]; omega)

end Sys2Proof.Machine
end

