-- ==== Sys2Proof/Laws/PerInstr.lean ====
section
/-! SUPPORT. The per-instruction family `CodeByte`: every operation is well-formed, is one byte (R92), and the opcode
table's word of it is read back by the decoder. -/

namespace Sys2Proof.Laws.CodeByte

open Sys2Proof

/-- An operation's words are one code byte, and its table word decodes to it. -/
def Statement (i : Instr) : Prop :=
  i.wf = true ∧ (encode i).length = 1 ∧ decodeTableWord 8 (encodeCode i).toNat = some i

theorem validate : Statement .validate := by unfold Statement; decide
theorem normalize : Statement .normalize := by unfold Statement; decide
theorem denormalize : Statement .denormalize := by unfold Statement; decide
theorem pack : Statement .pack := by unfold Statement; decide
theorem unpack : Statement .unpack := by unfold Statement; decide
theorem calculate : Statement .calculate := by unfold Statement; decide
theorem calcHwcrc : Statement .calcHwcrc := by unfold Statement; decide
theorem calcCrc8 : Statement .calcCrc8 := by unfold Statement; decide
theorem calcSum : Statement .calcSum := by unfold Statement; decide
theorem serialize : Statement .serialize := by unfold Statement; decide
theorem deserialize : Statement .deserialize := by unfold Statement; decide
theorem read : Statement .read := by unfold Statement; decide
theorem available : Statement .available := by unfold Statement; decide
theorem engByte : Statement .engByte := by unfold Statement; decide
theorem engError : Statement .engError := by unfold Statement; decide
theorem handler : Statement .handler := by unfold Statement; decide
theorem sinkWrite : Statement .sinkWrite := by unfold Statement; decide
theorem reset : Statement .reset := by unfold Statement; decide

end Sys2Proof.Laws.CodeByte
end

