-- ==== Sys2Proof/Laws/Transport.lean ====
section
/-! SUPPORT. What a step does to the transport state (SLOT, RDY, TC, TE, IM, WIDX and the configuration), said
once: eight kinds of step write it, every other step leaves it. -/

namespace Sys2Proof.Machine

/-- The transport state of 10_state.md section 4, with the configuration. -/
structure Transport where
  cfg : Config
  slot : List Host.Cell
  slotEpoch : Nat
  rdy : Readiness
  tc : Bool
  te : Bool
  im : Bool
  widx : Nat

def State.transport (s : State) : Transport where
  cfg := s.cfg
  slot := s.slot
  slotEpoch := s.slotEpoch
  rdy := s.rdy
  tc := s.tc
  te := s.te
  im := s.im
  widx := s.widx

/-- An equation of transport states, field by field. -/
theorem transport_eq {t : State} {x : Transport} (h : t.transport = x) :
    t.cfg = x.cfg ∧ t.slot = x.slot ∧ t.slotEpoch = x.slotEpoch ∧ t.rdy = x.rdy ∧ t.tc = x.tc ∧ t.te = x.te ∧
      t.im = x.im ∧ t.widx = x.widx := by
  subst h; exact ⟨rfl, rfl, rfl, rfl, rfl, rfl, rfl, rfl⟩

/-- The eight kinds of step that write transport state, and all the others. -/
inductive TransportDoes (line : ScriptLine) (s t : State) : Prop where
  | quiet (eq : t.transport = s.transport)
  | masks (isStep : line = .readStep) (ph : s.rdPhase = .mask)
      (eq : t.transport = { s.transport with im := true })
  | resamples (isStep : line = .readStep) (ph : s.rdPhase = .resample)
      (eq : t.transport = { s.transport with rdy := readinessOf s.tc })
  | unmasks (isStep : line = .readStep) (ph : s.rdPhase = .unmask)
      (eq : t.transport = { s.transport with im := false })
  | stores (ev : isEventOf .engByte line = true) (room : s.widx < s.cfg.regionSize) (b : Byte)
      (eq : t.transport = { s.transport with
        slot := Mem.write s.slot s.widx b
        tc := s.tc || decide (s.widx + 1 = s.cfg.regionSize)
        widx := if s.widx + 1 = s.cfg.regionSize then 0 else s.widx + 1 })
  | errs (ev : isEventOf .engError line = true) (eq : t.transport = { s.transport with te := true })
  | drops (ev : isEventOf .handler line = true) (im : s.im = false) (te : s.te = true)
      (eq : t.transport = { s.transport with te := false })
  | completes (ev : isEventOf .handler line = true) (im : s.im = false) (te : s.te = false) (tc : s.tc = true)
      (eq : t.transport = { s.transport with tc := false, rdy := .full })
  | resets (ev : isEventOf .reset line = true)
      (eq : t.transport = ⟨s.cfg, [], s.slotEpoch + 1, .idle, false, false, false, 0⟩)

theorem engineStore_transport (s : State) (b : Byte) :
    (s.engineStore b).transport = { s.transport with
      slot := Mem.write s.slot s.widx b
      tc := s.tc || decide (s.widx + 1 = s.cfg.regionSize)
      widx := if s.widx + 1 = s.cfg.regionSize then 0 else s.widx + 1 } := by
  unfold State.engineStore
  split <;> rename_i h <;> simp [State.transport, State.putSlot, State.setTc, h]

theorem afterPayload_transport (s : State) (w : Nat) : (s.afterPayload w).transport = s.transport := by
  unfold State.afterPayload; split <;> rfl

theorem LineDoes.transport {line : ScriptLine} {s t : State} (d : LineDoes line s t) : TransportDoes line s t := by
  cases d with
  | reads isStep eq =>
    rcases readStep_next eq with ⟨_, _, rfl⟩ | ⟨_, _, rfl⟩ | ⟨ph, rfl⟩ | ⟨_, _, _, rfl⟩ | ⟨_, _, rfl⟩ | ⟨ph, rfl⟩ |
      ⟨ph, rfl⟩
    · exact .quiet rfl
    · exact .quiet rfl
    · exact .masks isStep ph rfl
    · exact .quiet rfl
    · exact .quiet rfl
    · exact .resamples isStep ph rfl
    · exact .unmasks isStep ph rfl
  | stores p ev room eq => subst eq; exact .stores ev room _ (engineStore_transport _ _)
  | errs p ev eq => subst eq; exact .errs ev rfl
  | drops p ev im te eq => subst eq; exact .drops ev im te rfl
  | completes p ev im te tc eq => subst eq; exact .completes ev im te tc rfl
  | payload p _ _ _ eq => subst eq; exact .quiet (afterPayload_transport _ _)
  | digest p _ _ _ eq => subst eq; exact .quiet rfl
  | resets p ev eq => cases eq; exact .resets ev rfl
  | answers p r _ _ _ _ eq => subst eq; exact .quiet rfl
  | starts p _ _ _ eq => subst eq; exact .quiet rfl
  | waits p _ _ _ eq => subst eq; exact .quiet rfl

/-- Taking the next line changes the script and the counter of drawn lines only. -/
theorem nextLine_frame (s : State) :
    (nextLine s).2 = { s with script := (nextLine s).2.script, drawn := (nextLine s).2.drawn } := by
  unfold nextLine; split <;> rfl

/-- Everything a step can do is what its line does, then the ports are emptied. -/
theorem step_next {s t : State} (h : step s = .next t) :
    ∃ u, LineDoes (nextLine s).1 (nextLine s).2 u ∧ t = u.closePorts := runLine_next h

theorem runLine_transport {line : ScriptLine} {s t : State} (h : runLine line s = .next t) :
    TransportDoes line s t := by
  obtain ⟨u, d, rfl⟩ := runLine_next h
  have d := d.transport
  cases d with
  | quiet eq => exact .quiet eq
  | masks isStep ph eq => exact .masks isStep ph eq
  | resamples isStep ph eq => exact .resamples isStep ph eq
  | unmasks isStep ph eq => exact .unmasks isStep ph eq
  | stores ev room b eq => exact .stores ev room b eq
  | errs ev eq => exact .errs ev eq
  | drops ev im te eq => exact .drops ev im te eq
  | completes ev im te tc eq => exact .completes ev im te tc eq
  | resets ev eq => exact .resets ev eq

theorem step_transport {s t : State} (h : step s = .next t) : TransportDoes (nextLine s).1 s t := by
  have d := runLine_transport (show runLine (nextLine s).1 (nextLine s).2 = .next t from h)
  rw [nextLine_frame] at d
  cases d with
  | quiet eq => exact .quiet eq
  | masks isStep ph eq => exact .masks isStep ph eq
  | resamples isStep ph eq => exact .resamples isStep ph eq
  | unmasks isStep ph eq => exact .unmasks isStep ph eq
  | stores ev room b eq => exact .stores ev room b eq
  | errs ev eq => exact .errs ev eq
  | drops ev im te eq => exact .drops ev im te eq
  | completes ev im te tc eq => exact .completes ev im te tc eq
  | resets ev eq => exact .resets ev eq

end Sys2Proof.Machine
end

