-- ==== Sys2Proof/Tests/Slice0.lean ====
section
/-! SUPPORT. The model's own tests. Expected values come from the spec: the code table of R92, and the vectors of
95_test_vectors.md (its section is named at each test). The witnesses show that the hypotheses of the statements can
be met. -/

namespace Sys2Proof.Tests

open Sys2Proof Sys2Proof.Machine

/-! ## Decoding: every code written out bit by bit from the table of R92 (class, unit, function; class, number) -/

theorem test_code_validate : decode [0b0_000_0000] = .ok .validate [] := by decide
theorem test_code_normalize : decode [0b0_000_0001] = .ok .normalize [] := by decide
theorem test_code_denormalize : decode [0b0_000_0010] = .ok .denormalize [] := by decide
theorem test_code_pack : decode [0b0_001_0000] = .ok .pack [] := by decide
theorem test_code_unpack : decode [0b0_001_0001] = .ok .unpack [] := by decide
theorem test_code_calc : decode [0b0_010_0000] = .ok .calculate [] := by decide
theorem test_code_calc_hwcrc : decode [0b0_010_0001] = .ok .calcHwcrc [] := by decide
theorem test_code_calc_crc8 : decode [0b0_010_0010] = .ok .calcCrc8 [] := by decide
theorem test_code_calc_sum : decode [0b0_010_0011] = .ok .calcSum [] := by decide
theorem test_code_serialize : decode [0b0_011_0000] = .ok .serialize [] := by decide
theorem test_code_deserialize : decode [0b0_011_0001] = .ok .deserialize [] := by decide
theorem test_code_read : decode [0b0_100_0000] = .ok .read [] := by decide
theorem test_code_available : decode [0b0_100_0001] = .ok .available [] := by decide
theorem test_code_eng_byte : decode [0b1_0000000] = .ok .engByte [] := by decide
theorem test_code_eng_error : decode [0b1_0000001] = .ok .engError [] := by decide
theorem test_code_handler : decode [0b1_0000010] = .ok .handler [] := by decide
theorem test_code_sink_write : decode [0b1_0000011] = .ok .sinkWrite [] := by decide
theorem test_code_reset : decode [0b1_0001111] = .ok .reset [] := by decide

/-- R94: reserved codes are rejected by name, among them the neighbours of assigned ones. -/
theorem test_unassigned_codes :
    decode [0x03] = .rejected (.unassigned 0x03) ∧ decode [0x24] = .rejected (.unassigned 0x24) ∧
    decode [0x42] = .rejected (.unassigned 0x42) ∧ decode [0x50] = .rejected (.unassigned 0x50) ∧
    decode [0x84] = .rejected (.unassigned 0x84) ∧ decode [0x8E] = .rejected (.unassigned 0x8E) ∧
    decode [0xFF] = .rejected (.unassigned 0xFF) ∧ decode [] = .rejected .noBytes := by decide

/-- A code takes one byte; the bytes after it are left. -/
theorem test_decode_leaves_the_rest : decode [0x40, 0x41] = .ok .read [0x41] := by decide

/-! ## Well-formedness: one ill-formed term for each check -/

theorem test_wf_shape : Args.hasShape Instr.pack.shape (.v (.lit 3)) = false := by decide
theorem test_wf_input_shape : EnvInput.hasShape Instr.engByte.shape (.sinkCount 1) = false := by decide
theorem test_wf_candidate : Candidate.fits ⟨false, 8, 1, 0, 256, 1⟩ = false := by decide
theorem test_wf_elem : fitsElem Config.reference.toParams 65536 = false := by decide
theorem test_wf_values_count : fitsValues Config.reference.toParams [1, 2, 3] = false := by decide
theorem test_wf_values_width : fitsValues Config.reference.toParams [1, 2, 3, 65536] = false := by decide
theorem test_wf_packed : fitsPacked Config.reference.packedSize [0, 0, 0, 0] = false := by decide
theorem test_wf_buffer : fitsBuffer [0x31] 2 = false := by decide
theorem test_wf_config_order :
    ({ Config.reference.toParams with minimal := 1000, maximum := 0 } : Params).legal = false := by decide
theorem test_wf_config_poly : ({ Config.reference.toParams with crc8Poly := 0x3C } : Params).legal = false := by decide

/-! ## Configurations and small states -/

/-- 8 bits, N = 3, [5, 12] (95_test_vectors.md section 2.1). -/
def cfgSmall : Config :=
  { Config.reference with elemWidth := 8, n := 3, minimal := 5, maximum := 12, isLegal := by decide }

/-- 16 bits, N = 2, [65000, 65535]. -/
def cfgTop : Config :=
  { Config.reference with n := 2, minimal := 65000, maximum := 65535, isLegal := by decide }

/-- 8 bits, N = 1, [7, 7], with a hasher variant. -/
def cfgZero (h : HashSel) (hl : h = .hwcrc ∨ h = .crc8 ∨ h = .sum) : Config :=
  { Config.reference with
    elemWidth := 8, n := 1, minimal := 7, maximum := 7, hashSel := h
    isLegal := by rcases hl with rfl | rfl | rfl <;> decide }

def cfgSum : Config := { Config.reference with hashSel := .sum, isLegal := by decide }
def cfgHw : Config := { Config.reference with hashSel := .hwcrc, isLegal := by decide }
def cfgAlways : Config := { Config.reference with digestAfterShort := .always, isLegal := by decide }
def cfgFrame : Config := { Config.reference with copyGranularity := .frame, isLegal := by decide }

/-- After reset of a configuration, with given operands. -/
def withPorts (c : Config) (f : Ports → Ports) : State :=
  { State.afterReset c with ports := f (emptyPorts c.toParams) }

/-- What the spec's frame of {0, 999, 500, 42} leaves in SLOT. -/
def frameCells : List Host.Cell := [(0, 0x00), (1, 0x9C), (2, 0x4F), (3, 0x9F), (4, 0x0A), (5, 0x6B)]

def frameBytes : List Byte := [0x00, 0x9C, 0x4F, 0x9F, 0x0A, 0x6B]

/-- A state with (RDY, TC, TE, IM, WIDX) as the table of 95_test_vectors.md section 2.5 writes it. -/
def transportState (rdy : Readiness) (tc te im : Bool) (widx : Nat) : State :=
  { State.reset with slot := frameCells, rdy := rdy, tc := tc, te := te, im := im, widx := widx }

def tuple (s : State) : Readiness × Bool × Bool × Bool × Nat := (s.rdy, s.tc, s.te, s.im, s.widx)

/-- A SERIALIZE of {0, 999, 500, 42} waiting for its payload write. -/
def payloadState (c : Config) (w : Nat) : State :=
  ({ withPorts c (fun p => { p with values := [0, 999, 500, 42], sinkCount := w }) with } : State).startSerialize

/-- The same, waiting for its digest write after `w1` payload bytes. -/
def digestState (c : Config) (w1 w : Nat) : State :=
  { payloadState c w with serPhase := .writeDigest, serW1 := w1 }

/-- One field of a next state. -/
def get {α : Type} (f : State → α) : Host.Outcome State Fault Refusal → Option α
  | .next s => some (f s)
  | .fault _ => none
  | .refused _ => none

/-! ## One step of each operation (95_test_vectors.md sections 2.1 to 2.5) -/

theorem test_validate_three_causes :
    get (·.res.cfgerr) (exec .validate (withPorts .reference fun p =>
      { p with candidate := ⟨true, 16, 0, 10, 5, 1⟩ })) = some (some 0b00111) := by decide

theorem test_validate_reserved_hash :
    get (·.res.cfgerr) (exec .validate (withPorts .reference fun p =>
      { p with candidate := ⟨false, 16, 4, 0, 1000, 3⟩ })) = some (some 0b10000) := by decide

theorem test_normalize_top :
    get (·.res.code) (exec .normalize (withPorts .reference fun p => { p with v := 65535 })) = some (some 1000) := by
  decide

theorem test_normalize_below :
    get (·.res.code) (exec .normalize (withPorts cfgSmall fun p => { p with v := 4 })) = some (some 0) := by decide

theorem test_denormalize_masks :
    get (·.res.v) (exec .denormalize (withPorts .reference fun p => { p with code := 2047 })) = some (some 1023) := by
  decide +kernel

theorem test_denormalize_wraps :
    get (·.res.v) (exec .denormalize (withPorts cfgTop fun p => { p with code := 1023 })) = some (some 487) := by
  decide +kernel

theorem test_pack_clamps :
    get (·.res.pb) (exec .pack (withPorts .reference fun p => { p with values := [10, 1500, 2000, 1001] })) =
      some (some [0x0A, 0xA0, 0x8F, 0x3E, 0xFA]) := by decide +kernel

theorem test_pack_pads :
    get (·.res.pb) (exec .pack (withPorts cfgSmall fun p => { p with values := [0, 255, 8] })) =
      some (some [0xF8, 0x00]) := by decide +kernel

theorem test_unpack_above_range :
    get (·.res.values) (exec .unpack (withPorts .reference fun p =>
      { p with pb := [0x31, 0x32, 0x33, 0x34, 0x35] })) = some (some [561, 204, 835, 212]) := by decide +kernel

theorem test_unpack_wraps :
    get (·.res.values) (exec .unpack (withPorts cfgTop fun p => { p with pb := [0xFF, 0xFF, 0x0F] })) =
      some (some [487, 487]) := by decide +kernel

theorem test_calc_crc8 :
    get (·.res.digest) (exec .calculate (withPorts .reference fun p =>
      { p with bytes := [0x00, 0x9C, 0x4F, 0x9F, 0x0A], length := 5 })) = some (some 0x6B) := by decide +kernel

theorem test_calc_sum_selected :
    get (·.res.digest) (exec .calculate (withPorts cfgSum fun p =>
      { p with bytes := [0x00, 0x9C, 0x4F, 0x9F, 0x0A], length := 5 })) = some (some 0x94) := by decide +kernel

theorem test_calc_hwcrc :
    get (·.res.digest) (exec .calcHwcrc (withPorts .reference fun p =>
      { p with bytes := [0x31, 0x32, 0x33, 0x34, 0x35, 0x36, 0x37, 0x38, 0x39], length := 9 })) =
      some (some 0x57) := by decide +kernel

theorem test_calc_hwcrc_empty :
    get (·.res.digest) (exec .calcHwcrc (withPorts .reference fun p => { p with bytes := [0x31], length := 0 })) =
      some (some 0xFF) := by decide +kernel

theorem test_calc_crc8_buffer_b :
    get (·.res.digest) (exec .calcCrc8 (withPorts cfgSum fun p =>
      { p with bytes := [0x72, 0xDF, 0x80, 0x1A, 0x3B], length := 5 })) = some (some 0x3A) := by decide +kernel

theorem test_calc_sum :
    get (·.res.digest) (exec .calcSum (withPorts .reference fun p =>
      { p with bytes := [0x72, 0xDF, 0x80, 0x1A, 0x3B, 0xFF], length := 5 })) = some (some 0x26) := by decide +kernel

theorem test_serialize_step_one :
    get (fun t => (t.serPhase, t.serPb, t.serDigest, t.sinkLog)) (exec .serialize (withPorts .reference fun p =>
      { p with values := [1, 2, 3, 4] })) =
      some (.writePayload, [0x01, 0x08, 0x30, 0x00, 0x01], 0x34, []) := by decide +kernel

theorem test_deserialize_longer :
    get (fun t => (t.res.values, t.res.ok)) (exec .deserialize (withPorts .reference fun p =>
      { p with bytes := frameBytes ++ [0x77], length := 7 })) =
      some (some [0, 999, 500, 42], some true) := by decide +kernel

theorem test_deserialize_mismatch :
    get (fun t => (t.res.values, t.res.ok)) (exec .deserialize (withPorts .reference fun p =>
      { p with bytes := [0x00, 0x98, 0x4F, 0x9F, 0x0A, 0x6B], length := 6 })) = some (none, some false) := by
  decide +kernel

theorem test_read_wrong_length :
    get (fun t => (t.res.bytesRead, t.res.rx, t.rdPhase)) (exec .read (withPorts .reference fun p =>
      { p with expectedLength := 7 })) = some (some 0, none, .idle) := by decide

theorem test_read_starts :
    get (fun t => (t.res.bytesRead, t.rdPhase)) (exec .read (withPorts .reference fun p =>
      { p with expectedLength := 6 })) = some (none, .wait) := by decide

theorem test_available_reads_rdy_not_tc :
    get (·.res.byteCount) (exec .available (transportState .idle true false false 0)) = some (some 0) := by decide

theorem test_available_full :
    get (·.res.byteCount) (exec .available (transportState .full false false false 0)) = some (some 6) := by decide

theorem test_eng_byte_last :
    get (fun t => (tuple t, t.slotByte 5)) (exec .engByte { transportState .idle false false false 5 with
      slot := [], ports := { (emptyPorts Config.reference.toParams) with lineByte := 0x6B } }) =
      some ((.idle, true, false, false, 0), 0x6B) := by decide

theorem test_eng_byte_tc_stays :
    get tuple (exec .engByte (transportState .full true false false 5)) = some (.full, true, false, false, 0) := by
  decide

theorem test_eng_error :
    get tuple (exec .engError (transportState .idle false false false 3)) = some (.idle, false, true, false, 3) := by
  decide

theorem test_handler_error_first :
    get tuple (exec .handler (transportState .idle true true false 0)) = some (.idle, true, false, false, 0) := by
  decide

theorem test_handler_completes :
    get tuple (exec .handler (transportState .idle true false false 0)) = some (.full, false, false, false, 0) := by
  decide

/-- Section 2.4: three payload bytes accepted, digest never written after a short write; the host gets `ok` alone
(R218). -/
theorem test_sink_write_short :
    get (fun t => (t.sinkLog, t.hostVars, t.serPhase)) (exec .sinkWrite (payloadState .reference 3)) =
      some ([0x00, 0x9C, 0x4F], [{ ok := some false }], .idle) := by decide +kernel

/-- Section 2.4: nothing of the payload, then the digest; `ok` is 0. -/
theorem test_sink_write_digest :
    get (fun t => (t.sinkLog, t.res.ok, t.serPhase)) (exec .sinkWrite (digestState cfgAlways 0 1)) =
      some ([0x6B], some false, .idle) := by decide +kernel

theorem test_reset :
    get (fun t => (tuple t, t.slot)) (exec .reset (transportState .full true true true 3)) =
      some ((.idle, false, false, false, 0), []) := by decide

/-- Section 2.5: the resample with TC = 1 leaves RDY full and TC set. -/
theorem test_resample_with_tc :
    get (fun t => (tuple t, t.rdPhase)) (readStep { transportState .full true false true 0 with
      rdPhase := .resample }) = some ((.full, true, false, true, 0), .unmask) := by decide

/-- Section 2.5: the unmask step returns the region's size. -/
theorem test_unmask :
    get (fun t => (t.im, t.rdPhase, t.res.bytesRead)) (readStep { transportState .idle false false true 0 with
      rdPhase := .unmask, rdK := 6, rx := frameBytes }) = some (false, .idle, some 6) := by decide

/-! ## The step -/

/-- The operation placed in an opcode-table word runs as the first step after reset. -/
theorem test_step_runs_placed_word :
    get (·.hostVars) (step (State.reset.withFetchWord 8 0x41)) = some [{ byteCount := some 0 }] ∧
    get (·.te) (step (State.reset.withFetchWord 8 0x81)) = some true ∧
    get (·.rdy) (step (State.reset.withFetchWord 8 0x82)) = some .full ∧
    get (·.serPhase) (step (State.reset.withFetchWord 8 0x83)) = some .idle := by decide +kernel

/-- R97: SEND is one SERIALIZE. A script line brings its operands onto the ports. -/
theorem test_step_takes_script_line :
    get (·.serPb) (step { State.reset with script := send (.lit [1, 2, 3, 4]) }) =
      some [0x01, 0x08, 0x30, 0x00, 0x01] := by decide +kernel

/-- R24: the operand and the result are gone from the ports when the step ends; the host has the result. -/
theorem test_step_empties_ports :
    get (fun t => (t.ports.v, t.res, t.hostVars)) (step { State.reset with
      script := [.command 0x01 (.v (.lit 1500))] }) = some (0, {}, [{ code := some 1000 }]) := by decide +kernel

/-- R169: values absent after a failed DESERIALIZE are no operand. -/
theorem test_absent_values :
    get (·.res.pb) (step { State.reset with
      hostVars := [{ ok := some false }], script := [.command 0x10 (.values (.kept 0))] }) = none := by decide

/-! ## Witnesses: the hypotheses of the statements can be met -/

/-- A state of an instance whose SLOT holds the whole frame, at some point of a READ. -/
def framedIn (c : Config) (rdy : Readiness) (tc te im : Bool) (ph : RdPhase) (k : Nat) (rx : List Byte)
    (script : List ScriptLine) : State :=
  { State.afterReset c with
    slot := frameCells, rdy := rdy, tc := tc, te := te, im := im, rdPhase := ph, rdK := k, rx := rx
    script := script }

/-- The same of the reference instance. -/
abbrev framed := framedIn .reference

theorem region_is_six : Config.reference.regionSize = 6 := by decide

theorem inv_framedIn {c : Config} (h6 : c.regionSize = 6) {rdy : Readiness} {tc te im : Bool} {ph : RdPhase} {k : Nat}
    {rx : List Byte} {script : List ScriptLine} (hm : im = true ↔ ph = .copy ∨ ph = .resample ∨ ph = .unmask)
    (hf : ph = .mask ∨ ph = .copy ∨ ph = .resample → rdy = .full)
    (hn : ph = .idle ∨ ph = .wait ∨ ph = .mask → k = 0 ∧ rx = [])
    (hc : ph = .copy → k < 6 ∧ rx.length = k) (hd : ph = .resample ∨ ph = .unmask → k = 6 ∧ rx.length = 6) :
    Inv (framedIn c rdy tc te im ph k rx script) where
  slotCanonical := by show Mem.wf frameCells = true; decide
  slotInRegion := fun x hx => by
    have hw : (framedIn c rdy tc te im ph k rx script).written x = (Mem.lookup frameCells x).isSome := rfl
    show x < c.regionSize
    rw [h6]
    by_contra hge
    rw [hw] at hx
    simp only [frameCells, Mem.lookup] at hx
    rw [if_neg (by omega), if_neg (by omega), if_neg (by omega), if_neg (by omega), if_neg (by omega),
      if_neg (by omega)] at hx
    cases hx
  indexInRegion := Params.regionSize_pos _
  periodStored := by intro x hx; cases hx
  regionStored := fun _ x hx => by
    have h : ∀ y, y < 6 → (Mem.lookup frameCells y).isSome = true := by decide
    exact h x (h6 ▸ hx)
  maskedExactly := hm
  fullWhileReading := hf
  oneOperation := .inr rfl
  notCopying := hn
  copying := fun h => ⟨h6 ▸ (hc h).1, (hc h).2⟩
  copied := fun h => ⟨(hd h).1.trans h6.symm, (hd h).2.trans h6.symm⟩
  notSerializing := fun _ => ⟨rfl, rfl⟩
  serializing := fun h => absurd rfl h
  firstCount := ⟨fun _ => rfl, fun h => by cases h⟩
  portsEmpty := ⟨rfl, rfl⟩
  keptTyped := fun r hr => by cases hr

theorem inv_framed {rdy : Readiness} {tc te im : Bool} {ph : RdPhase} {k : Nat} {rx : List Byte}
    {script : List ScriptLine} (hm : im = true ↔ ph = .copy ∨ ph = .resample ∨ ph = .unmask)
    (hf : ph = .mask ∨ ph = .copy ∨ ph = .resample → rdy = .full)
    (hn : ph = .idle ∨ ph = .wait ∨ ph = .mask → k = 0 ∧ rx = [])
    (hc : ph = .copy → k < 6 ∧ rx.length = k) (hd : ph = .resample ∨ ph = .unmask → k = 6 ∧ rx.length = 6) :
    Inv (framed rdy tc te im ph k rx script) := inv_framedIn region_is_six hm hf hn hc hd

/-- WidthCauseIsUnreachable: the widest bounds of 8 bits. -/
theorem witness_width_cause : Candidate.fits ⟨false, 8, 1, 0, 255, 1⟩ = true := by decide

/-- DerivedSizesFollowFromBitWidth, BitWidthCountsTheBitsOfRange: a range of 0, of 1000, and one that fills its type. -/
theorem witness_ranges :
    (cfgZero .crc8 (by simp)).bitWidth = 0 ∧ (cfgZero .crc8 (by simp)).range = 0 ∧
    (cfgZero .crc8 (by simp)).packedSize = 0 ∧ Config.reference.range = 1000 ∧ Config.reference.bitWidth = 10 ∧
    cfgSmall.range = 7 ∧ cfgSmall.bitWidth = 3 ∧ cfgSmall.packedSize = 2 := by decide

/-- NormalizeClampsAndSubtracts, the clause on [5, 12]. -/
theorem witness_normalize : cfgSmall.minimal = 5 ∧ cfgSmall.maximum = 12 := by decide

/-- PackWritesEveryField: N values, the last field's last bit, and a padding bit. -/
theorem witness_pack :
    (withPorts cfgSmall fun p => { p with values := [5, 12, 9] }).ports.values.length = cfgSmall.n ∧
    2 < cfgSmall.n ∧ 2 < cfgSmall.bitWidth ∧ cfgSmall.n * cfgSmall.bitWidth ≤ 15 := by decide

/-- UnpackReadsEveryField: PACKED_SIZE bytes, the last field's last bit. -/
theorem witness_unpack :
    (withPorts cfgSmall fun p => { p with pb := [0x38, 0x01] }).ports.pb.length = cfgSmall.packedSize ∧
    2 < cfgSmall.n ∧ 2 < cfgSmall.bitWidth := by decide

/-- UnpackOfPackIsClamp, SerializeThenDeserializeIsClamp: values out of range, and values in range. -/
theorem witness_values :
    State.reset.hostBusy = false ∧ fitsValues Config.reference.toParams [10, 1500, 2000, 1001] = true ∧
    fitsValues Config.reference.toParams [0, 999, 500, 1000] = true ∧
    (∀ v ∈ [0, 999, 500, 1000], Config.reference.minimal ≤ v ∧ v ≤ Config.reference.maximum) := by decide

/-- UnpackIgnoresPadding: two buffers that differ in padding bits only. -/
theorem witness_padding :
    (∀ g, g < cfgSmall.n * cfgSmall.bitWidth → bufBit [0x38, 0x01] g = bufBit [0x38, 0xFF] g) ∧
    bufBit [0x38, 0x01] 15 ≠ bufBit [0x38, 0xFF] 15 := by decide +kernel

/-- PackFieldsAreIndependent: the last element; a bit below its field, a bit above it, its last bit. -/
theorem witness_independent :
    [5, 12, 9].length = cfgSmall.n ∧ 2 < cfgSmall.n ∧ 5 < 2 * cfgSmall.bitWidth ∧
    (2 + 1) * cfgSmall.bitWidth ≤ 9 ∧ 2 < cfgSmall.bitWidth := by decide

/-- ZeroWidthFrameIsTheDigestAlone: MINIMAL = MAXIMUM under each hasher; the digest, and another byte. -/
theorem witness_zero_width :
    (cfgZero .crc8 (by simp)).minimal = (cfgZero .crc8 (by simp)).maximum ∧
    calculate (cfgZero .crc8 (by simp)).toParams [] = 0x00 ∧ calculate (cfgZero .sum (by simp)).toParams [] = 0x00 ∧
    calculate (cfgZero .hwcrc (by simp)).toParams [] = 0xFF ∧
    (cfgZero .hwcrc (by simp)).hwCrc = .reference ∧ (0x01 : Byte) ≠ calculate (cfgZero .crc8 (by simp)).toParams [] := by
  decide +kernel

/-- CalcRunsTheSelectedVariant: each selection exists. -/
theorem witness_selection : cfgHw.hashSel = .hwcrc ∧ Config.reference.hashSel = .crc8 ∧ cfgSum.hashSel = .sum := by
  decide

/-- CalcHwcrcFoldsZeroPaddedWords: a remainder of one byte in words of four. -/
theorem witness_hwcrc : 0 < [0x00#8, 0x9C#8, 0x4F#8, 0x9F#8, 0x0A#8].length % 4 ∧
    3 = 4 - [0x00#8, 0x9C#8, 0x4F#8, 0x9F#8, 0x0A#8].length % 4 := by decide

/-- HashersAreDeterministic: two different states with the same bytes. -/
theorem witness_determinism :
    let s := withPorts .reference fun p => { p with bytes := [0x31, 0x32], length := 1 }
    let t := { withPorts .reference fun p => { p with bytes := [0x31], length := 1 } with te := true }
    s.cfg = t.cfg ∧ s.ports.bytes.take s.ports.length = t.ports.bytes.take t.ports.length ∧ s ≠ t := by decide

/-- CalcSumAddsModulo256: a reordering that is none of the identity's. -/
theorem witness_permutation : [0x00#8, 0x9C#8].Perm [0x9C#8, 0x00#8] ∧ [0x00#8, 0x9C#8] ≠ [0x9C#8, 0x00#8] :=
  ⟨.swap _ _ _, by decide⟩

/-- SingleByteChangeChangesTheDigest: two bytes, and an odd polynomial. -/
theorem witness_byte_change : (0x31 : Byte) ≠ 0x32 ∧ (0x07 : Byte).getLsbD 0 = true := by decide

/-- SerializeComputesBeforeAnyWrite: HOST idle; a READ in progress; a SERIALIZE in progress. -/
theorem witness_serialize :
    (State.reset.rdPhase = .idle ∧ State.reset.serPhase = .idle) ∧
    (framed .idle false false false .wait 0 [] []).rdPhase ≠ .idle ∧ (payloadState .reference 0).serPhase ≠ .idle := by
  decide

/-- SinkWriteAppendsTheAcceptedPrefix: each clause, at the ends of its range of counts. -/
theorem witness_sink_write :
    ((payloadState .reference 5).serPhase = .writePayload ∧ (payloadState .reference 5).ports.sinkCount = 5 ∧
      Config.reference.packedSize = 5) ∧
    ((payloadState .reference 0).ports.sinkCount ≠ Config.reference.packedSize ∧
      Config.reference.digestAfterShort = .never) ∧
    (cfgAlways.digestAfterShort = .always ∧ (payloadState cfgAlways 3).serPhase = .writePayload ∧
      (payloadState cfgAlways 3).ports.sinkCount ≤ cfgAlways.packedSize) ∧
    ((digestState .reference 5 1).serPhase = .writeDigest ∧
      (digestState .reference 5 1).ports.sinkCount ≤ Config.reference.digestSize ∧
      (digestState .reference 5 1).serW1 = Config.reference.packedSize) ∧
    State.reset.serPhase = .idle ∧
    (payloadState .reference 6).serPhase = .writePayload ∧
    Config.reference.packedSize < (payloadState .reference 6).ports.sinkCount ∧
    Config.reference.digestSize < (digestState .reference 5 2).ports.sinkCount := by decide

/-- SerializeWritesPayloadThenDigest: a short payload under each setting, a complete one. -/
theorem witness_serialize_run :
    State.reset.hostBusy = false ∧ fitsValues Config.reference.toParams [0, 999, 500, 42] = true ∧
    (3 : Nat) ≤ Config.reference.packedSize ∧ (3 : Nat) ≠ Config.reference.packedSize ∧
    Config.reference.digestAfterShort = .never ∧ 5 = Config.reference.packedSize ∧
    (State.afterReset cfgAlways).cfg.digestAfterShort = .always ∧
    fitsValues cfgAlways.toParams [0, 999, 500, 42] = true := by decide

/-- SinkIsAppendOnly: a step that appends. -/
theorem witness_append :
    get (·.sinkLog) (step { payloadState .reference 0 with script := [sinkAnswers 2] }) = some [0x00, 0x9C] ∧
    isEventOf .reset (nextLine { payloadState .reference 0 with script := [sinkAnswers 2] }).1 = false := by
  decide +kernel

/-- DeserializeChecksBeforeUnpacking: one byte too short; a match; a mismatch. -/
theorem witness_deserialize :
    (5 : Nat) ≤ frameBytes.length ∧ 5 < Config.reference.frameSize ∧ Config.reference.frameSize ≤ 6 ∧
    frameBytes[Config.reference.packedSize]? = some 0x6B ∧
    calculate Config.reference.toParams (frameBytes.take 5) = 0x6B ∧
    [0x00#8, 0x9C#8, 0x4F#8, 0x9F#8, 0x0A#8, 0x6A#8][Config.reference.packedSize]? = some 0x6A := by decide +kernel

/-- DeserializeReadsOnlyTheFrame: two buffers that differ after the frame. -/
theorem witness_longer :
    Config.reference.frameSize ≤ 7 ∧
    (frameBytes ++ [0x77]).take Config.reference.frameSize = (frameBytes ++ [0x78]).take Config.reference.frameSize := by
  decide

/-- AbsentValuesAreNeverUsed: the results of a failed DESERIALIZE, kept. -/
theorem witness_absent :
    let s := { State.reset with hostVars := [({ ok := some false } : Results)] }
    s.hostBusy = false ∧ s.hostVars[0]? = some { ok := some false } ∧
    ({ ok := some false } : Results).values = none := by decide

/-- ReadOfAnotherLengthReturnsZero, ReadStartsItsWait: one below, one above, the region's size; while in progress. -/
theorem witness_read :
    (withPorts .reference fun p => { p with expectedLength := 5 }).ports.expectedLength ≠ Config.reference.regionSize ∧
    (withPorts .reference fun p => { p with expectedLength := 7 }).ports.expectedLength ≠ Config.reference.regionSize ∧
    (withPorts .reference fun p => { p with expectedLength := 6 }).ports.expectedLength = Config.reference.regionSize ∧
    State.reset.rdPhase = .idle ∧ (framed .full false false false .mask 0 [] []).rdPhase ≠ .idle ∧
    ({ payloadState .reference 0 with
      ports := { emptyPorts Config.reference.toParams with expectedLength := 6 } } : State).serPhase ≠ .idle ∧
    (payloadState .reference 0).rdPhase = .idle := by decide

/-- ReadWaitsUntilFull, FullLastsUntilTheNextRead: a READ in its wait with RDY idle, and full; RDY full before any
line. -/
theorem witness_wait :
    (framed .idle false false false .wait 0 [] []).rdPhase = .wait ∧
    (framed .idle false false false .wait 0 [] []).rdy = .idle ∧
    (framed .full false false false .wait 0 [] []).rdy = .full ∧ handlerRuns ≠ .readStep ∧
    isEventOf .reset handlerRuns = false ∧
    get (·.rdy) (runLines [handlerRuns] (framed .full true false false .idle 0 [] [])) = some .full := by decide

/-- ReadCriticalSectionStepByStep: each phase; an inner and the last copy step; both granularities. -/
theorem witness_critical_section :
    (framed .full false false false .mask 0 [] []).rdPhase = .mask ∧
    (framed .full false false true .copy 0 [] []).rdPhase = .copy ∧
    Config.reference.copyGranularity = .byte ∧ 0 + 1 < Config.reference.regionSize ∧
    5 + 1 = Config.reference.regionSize ∧ cfgFrame.copyGranularity = .frame ∧
    (framed .full true false true .resample 6 frameBytes []).rdPhase = .resample ∧
    (framed .idle false false true .unmask 6 frameBytes []).rdPhase = .unmask := by decide

/-- UninterruptedReadReturnsTheRegion, LateReadMixesTwoPeriods: HOST idle, RDY full, the engine at offset 0; five bytes
are fewer than the region's six. -/
theorem witness_whole_read :
    (framed .full false false false .idle 0 [] []).hostBusy = false ∧
    (framed .full false false false .idle 0 [] []).rdy = .full ∧
    (framed .full false false false .idle 0 [] []).widx = 0 ∧
    [0x01#8, 0x08#8, 0x30#8, 0x00#8, 0x01#8].length < Config.reference.regionSize := by decide

/-- EngineStoresTheByteAtItsIndex: inside a period, at its end, and past the region. -/
theorem witness_engine :
    0 + 1 < Config.reference.regionSize ∧ (transportState .idle false false false 5).widx + 1 = Config.reference.regionSize ∧
    Config.reference.regionSize ≤ (transportState .idle false false false 6).widx := by decide

/-- The HANDLER statements: an error, with and without a completion; a completion alone; no request; masked. -/
theorem witness_handler :
    tuple (transportState .idle true true false 0) = (.idle, true, true, false, 0) ∧
    tuple (transportState .idle false true false 0) = (.idle, false, true, false, 0) ∧
    tuple (transportState .idle true false false 0) = (.idle, true, false, false, 0) ∧
    ¬((transportState .idle false false false 0).im = false ∧
      ((transportState .idle false false false 0).tc = true ∨ (transportState .idle false false false 0).te = true)) ∧
    ¬((transportState .idle true false true 0).im = false ∧
      ((transportState .idle true false true 0).tc = true ∨ (transportState .idle true false true 0).te = true)) := by
  decide

/-- ReadinessIsWrittenAsItsTableSays: RDY raised by a HANDLER step, lowered by a resample, each from a state that meets the
invariant. -/
theorem witness_readiness :
    Inv (framed .idle true false false .idle 0 [] [handlerRuns]) ∧
    get (·.rdy) (step (framed .idle true false false .idle 0 [] [handlerRuns])) = some .full ∧
    Inv (framed .full false false true .resample 6 frameBytes [.readStep]) ∧
    get (·.rdy) (step (framed .full false false true .resample 6 frameBytes [.readStep])) = some .idle :=
  ⟨inv_framed (by simp) (by simp) (by simp) (by simp) (by simp), by decide,
    inv_framed (by simp) (by simp) (by simp) (by simp) (by simp [frameBytes]), by decide⟩

/-- IndicatorsHaveOneWriterEach, SlotIsWrittenByTheEngineOnly: a step for each change. -/
theorem witness_indicators :
    get (fun t => (t.tc, t.widx)) (step { framed .idle false false false .idle 0 []
      [.event 0x80 (.lineByte 0x01)] with widx := 5 }) = some (true, 0) ∧
    get (·.slotByte 5) (step { framed .idle false false false .idle 0 []
      [.event 0x80 (.lineByte 0x01)] with widx := 5 }) = some 0x01 ∧
    (framed .idle false false false .idle 0 [] []).slotByte 5 = 0x6B ∧
    get (·.tc) (step (framed .idle true false false .idle 0 [] [handlerRuns])) = some false ∧
    get (·.te) (step (framed .idle false false false .idle 0 [] [.event 0x81 .none])) = some true ∧
    get (·.te) (step (framed .idle false true false .idle 0 [] [handlerRuns])) = some false ∧
    get (·.im) (step (framed .full false false false .mask 0 [] [.readStep])) = some true ∧
    get (·.im) (step (framed .idle false false true .unmask 6 frameBytes [.readStep])) = some false := by decide

/-- CompletionIsNeverForgotten: a completion at each indicator, and a step. -/
theorem witness_completion :
    (framed .idle true false false .idle 0 [] [handlerRuns]).tc = true ∧
    (framed .full false false true .resample 6 frameBytes [.readStep]).rdy = .full := by decide

/-- EveryStepKeepsTheInvariant, NoStepFaults: a state that meets the invariant and takes a step. -/
theorem witness_invariant :
    Inv (framed .full true false true .copy 3 [0x00, 0x9C, 0x4F] [.readStep]) ∧
    get (·.rx) (step (framed .full true false true .copy 3 [0x00, 0x9C, 0x4F] [.readStep])) =
      some [0x00, 0x9C, 0x4F, 0x9F] :=
  ⟨inv_framed (by simp) (by simp) (by simp) (by simp) (by simp), by decide⟩

/-- ReadCopiesOnlyStoredBytes: the last byte of a copy byte by byte, and a copy of the whole region, each from a state
that meets the invariant. -/
theorem witness_copies :
    (Inv (framed .full false false true .copy 5 [0x00, 0x9C, 0x4F, 0x9F, 0x0A] []) ∧
      Config.reference.copyGranularity = .byte) ∧
    (Inv (framedIn cfgFrame .full false false true .copy 0 [] []) ∧ cfgFrame.copyGranularity = .frame) ∧
    get (·.rx) (readStep (framedIn cfgFrame .full false false true .copy 0 [] [])) = some frameBytes :=
  ⟨⟨inv_framed (by simp) (by simp) (by simp) (by simp) (by simp), rfl⟩,
    ⟨inv_framedIn (by decide) (by simp) (by simp) (by simp) (by simp) (by simp), rfl⟩, by decide +kernel⟩

/-- MaskStopsTheHandlerNotTheEngine: each phase of the critical section. -/
theorem witness_masked :
    (Inv (framed .full false false true .copy 5 [0x00, 0x9C, 0x4F, 0x9F, 0x0A] []) ∧
      (framed .full false false true .copy 5 [0x00, 0x9C, 0x4F, 0x9F, 0x0A] []).rdPhase = .copy) ∧
    Inv (framed .full true false true .resample 6 frameBytes []) ∧
    Inv (framed .idle false false true .unmask 6 frameBytes []) :=
  ⟨⟨inv_framed (by simp) (by simp) (by simp) (by simp) (by simp), rfl⟩,
    inv_framed (by simp) (by simp) (by simp) (by simp) (by simp [frameBytes]),
    inv_framed (by simp) (by simp) (by simp) (by simp) (by simp [frameBytes])⟩

/-- TimelyReadIsNotTorn: a one-byte frame (the zero-width configuration), announced, read, and a byte of the next period
after the copy. -/
theorem witness_timely :
    let s := State.afterReset (cfgZero .crc8 (by simp))
    let copying : List ScriptLine := [.readStep, .readStep, .readStep]
    let after : List ScriptLine := [.event 0x80 (.lineByte 0xAA), .readStep, .readStep]
    let run := runLines (feed [0x00] ++ ([handlerRuns] ++
      (.command (encodeCode .read) (.expected (.lit s.cfg.regionSize)) :: copying))) s
    s.widx = 0 ∧ [0x00#8].length = s.cfg.regionSize ∧ timely ([handlerRuns] ++ copying) = true ∧
    (copying ++ after).all duringRead = true ∧ get (·.rdPhase) run = some .resample ∧
    (match run with
      | .next u => get (fun t => (t.rdPhase, t.hostVars)) (runLines after u)
      | .fault _ => none
      | .refused _ => none) = some (.idle, [{ bytesRead := some 1, rx := some [0x00] }]) := by decide +kernel

/-- FrameTravelsFromNodeToNode: two nodes right after reset. -/
theorem witness_travel :
    State.reset.cfg = State.reset.cfg ∧ fitsValues State.reset.cfg.toParams [0, 999, 500, 42] = true ∧
    State.reset.hostBusy = false ∧ State.reset.widx = 0 ∧ State.reset.te = false ∧ State.reset.im = false := by decide

/-- PureOperationsTouchNoState: two different states with the same configuration and operands. -/
theorem witness_pure :
    Instr.pack.isPure = true ∧ (transportState .full true true true 3).cfg = State.reset.cfg ∧
    (transportState .full true true true 3).ports = State.reset.ports ∧ transportState .full true true true 3 ≠ State.reset := by
  decide

/-- UnassignedCodesAreRefused: an unassigned code, an event's code, a command's code; a READ in progress, a SERIALIZE
in progress, neither. -/
theorem witness_codes :
    decodeCode 0x03 = none ∧ decodeCode 0x8F = some .reset ∧ Instr.reset.isEvent = true ∧
    decodeCode 0x41 = some .available ∧ Instr.available.isEvent = false ∧
    (framed .idle false false false .wait 0 [] []).rdPhase ≠ .idle ∧ (payloadState .reference 0).serPhase ≠ .idle ∧
    State.reset.rdPhase = .idle := by decide

/-- StepRunsTheDecodedOperation: a line for each clause. -/
theorem witness_step :
    (decode [0x41] = .ok .available [] ∧ Instr.available.isEvent = false ∧ State.reset.hostBusy = false ∧
      loadOperands .available .none State.reset = .ok (emptyPorts Config.reference.toParams)) ∧
    (decode [0x80] = .ok .engByte [] ∧ Instr.engByte.isEvent = true ∧
      loadInput .engByte (.lineByte 0x31) State.reset =
        .ok { emptyPorts Config.reference.toParams with lineByte := 0x31 }) ∧
    State.reset.script = [] ∧ (framed .full false false false .mask 0 [] [.readStep]).script = [.readStep] :=
  ⟨⟨rfl, rfl, rfl, rfl⟩, ⟨rfl, rfl, rfl⟩, rfl, rfl⟩

/-- PlacedOperationRunsNext: a host command and an event. -/
theorem witness_placed : Instr.read.isEvent = false ∧ Instr.sinkWrite.isEvent = true := by decide

/-- PortsCarryOneOperationOnly: a step that answers a next state; operands and an input that load. -/
theorem witness_ports :
    get (·.hostVars) (step { State.reset with script := [.command 0x01 (.v (.lit 42))] }) =
      some [{ code := some 42 }] ∧
    (loadOperands .normalize (.v (.lit 42)) State.reset).toOption.map (·.v) = some 42 ∧
    (loadInput .sinkWrite (.sinkCount 5) State.reset).toOption.map (·.sinkCount) = some 5 := by decide +kernel

end Sys2Proof.Tests
end

section
/-! The family of 40_validator.md: the derived sizes (R103, R104), NORMALIZE (R107) and its round trip (R109). -/

namespace Sys2Proof

theorem Params.mask_eq (p : Params) : p.mask = 2 ^ p.bitWidth - 1 := rfl

theorem Params.packedSize_eq (p : Params) : p.packedSize = (p.n * p.bitWidth + 7) / 8 := rfl

theorem Params.mask_of_bitWidth_zero {p : Params} (h : p.bitWidth = 0) : p.mask = 0 := by
  simp [p.mask_eq, h]

theorem Config.range_le_mask (c : Config) : c.range ≤ c.mask := by
  rw [c.mask_eq]
  exact Nat.le_sub_one_of_lt c.range_lt

/-- The buffer is empty exactly when all its fields together have no bit; a legal N is not 0. -/
theorem Config.packedSize_eq_zero (c : Config) : c.packedSize = 0 ↔ c.bitWidth = 0 := by
  have hbits : c.packedSize = 0 ↔ c.n * c.bitWidth = 0 := by
    rw [c.packedSize_eq]
    omega
  rw [hbits, Nat.mul_eq_zero, or_iff_right c.n_pos.ne']

end Sys2Proof

namespace Sys2Proof.Machine

/-- NORMALIZE answers the code of the value on its port, in every state (R107). -/
theorem exec_normalize (s : State) :
    exec .normalize s = .next (s.answer { code := some (normalizeValue s.cfg.toParams s.ports.v) }) := rfl

theorem normalizeValue_eq (p : Params) (v : Nat) :
    normalizeValue p v =
      (if v < p.minimal then p.minimal else if v > p.maximum then p.maximum else v) - p.minimal := rfl

/-- The subtraction of R107 does not go below zero, so adding MINIMAL undoes it. -/
theorem normalizeValue_add_minimal (c : Config) (v : Nat) :
    normalizeValue c.toParams v + c.minimal = clampTo c.minimal c.maximum v :=
  Nat.sub_add_cancel (clampTo_mem c.minimal_le_maximum v).1

theorem clampTo_lt_two_pow_elemWidth (c : Config) (v : Nat) :
    clampTo c.minimal c.maximum v < 2 ^ c.elemWidth :=
  (clampTo_mem c.minimal_le_maximum v).2.trans_lt c.maximum_lt

/-- R109: neither the mask nor the wrap of DENORMALIZE changes anything on a code that NORMALIZE gave. -/
theorem denormalizeCode_normalizeValue (c : Config) (v : Nat) :
    denormalizeCode c.toParams (normalizeValue c.toParams v) = clampTo c.minimal c.maximum v := by
  rw [denormalize_eq, Nat.mod_eq_of_lt (normalize_lt c v), normalizeValue_add_minimal,
    Nat.mod_eq_of_lt (clampTo_lt_two_pow_elemWidth c v)]

/-- Settles O3: each size by its own lemma, the reference sizes by evaluation. -/
theorem derivedSizesFollowFromBitWidth : Obligations.DerivedSizesFollowFromBitWidth := by
  unfold Obligations.DerivedSizesFollowFromBitWidth
  refine ⟨fun c => ?_, by decide⟩
  exact ⟨c.mask_eq, Params.mask_of_bitWidth_zero, c.range_le_mask, c.packedSize_eq, rfl, rfl, rfl,
    c.packedSize_eq_zero⟩

/-- Settles O7: a code lies below `2^BITWIDTH` and the clamped value below `2^ELEM_WIDTH`. -/
theorem denormalizeOfNormalizeIsClamp : Obligations.DenormalizeOfNormalizeIsClamp := by
  unfold Obligations.DenormalizeOfNormalizeIsClamp
  exact denormalizeCode_normalizeValue

/-- Settles O5: the code by `exec_normalize`, its bounds by the codec's laws, the examples by evaluation. -/
theorem normalizeClampsAndSubtracts : Obligations.NormalizeClampsAndSubtracts := by
  unfold Obligations.NormalizeClampsAndSubtracts
  refine ⟨fun s => ?_, by decide, by decide, fun p hmin hmax => ?_⟩
  · exact ⟨normalizeValue s.cfg.toParams s.ports.v, exec_normalize s, normalizeValue_eq _ _,
      normalize_le_range s.cfg _, normalize_lt s.cfg _⟩
  · simp [normalizeValue_eq, hmin, hmax]

end Sys2Proof.Machine
end

section
/-! The family of 41_codec.md: PACK and UNPACK field by field (R120, R124), their round trip (R127, R128), and the
purity of the pure operations (R13, R132). -/

namespace Sys2Proof.Machine

/-- What a pure operation answers, a function of the configuration and the operand ports alone (R13, R132);
`exec_pure_eq` ties it to `exec`. The other operations answer nothing here. -/
def pureResults (i : Instr) (c : Config) (x : Ports) : Results :=
  match i with
  | .validate => { cfgerr := some (validate c.rangeCapWidth x.candidate) }
  | .normalize => { code := some (normalizeValue c.toParams x.v) }
  | .denormalize => { v := some (denormalizeCode c.toParams x.code) }
  | .pack => { pb := some (pack c.toParams x.values) }
  | .unpack => { values := some (unpack c.toParams x.pb) }
  | .calculate => { digest := some (calculate c.toParams (bufferOperand x)) }
  | .calcHwcrc => { digest := some (hwCrc c.hwCrc (bufferOperand x)) }
  | .calcCrc8 => { digest := some (crc8 c.crc8Poly (bufferOperand x)) }
  | .calcSum => { digest := some (sum8 (bufferOperand x)) }
  | .deserialize => deserializeResults (deserialize c.toParams x.bytes x.length)
  | .serialize | .read | .available | .engByte | .engError | .handler | .sinkWrite | .reset => {}

theorem exec_pure_eq {i : Instr} (h : i.isPure = true) (s : State) :
    exec i s = .next (s.answer (pureResults i s.cfg s.ports)) := by
  cases i
  case serialize | read | available | engByte | engError | handler | sinkWrite | reset => cases h
  all_goals rfl

/-- R13: no pure operation is an agent's event. -/
theorem isEvent_of_isPure {i : Instr} (h : i.isPure = true) : i.isEvent = false := by
  cases i <;> revert h <;> decide

/-- A pure command's line, with HOST idle: the host keeps its results, and the ports it used are emptied (R24). -/
theorem runLine_pure {i : Instr} {args : Args} {s : State} {p : Ports} (h : i.isPure = true)
    (hb : s.hostBusy = false) (hp : loadOperands i args s = .ok p) :
    runLine (.command (encodeCode i) args) s = .next (s.answer (pureResults i s.cfg p)).closePorts := by
  rw [runLine_command (isEvent_of_isPure h) hb hp, exec_pure_eq h]
  rfl

theorem fitsValues_length {p : Params} {vs : List Nat} (h : fitsValues p vs = true) : vs.length = p.n := by
  rw [fitsValues, Bool.and_eq_true, decide_eq_true_eq] at h
  exact h.1

/-! ### PACK -/

/-- The code PACK makes of element `i` (R120). -/
theorem getD_map_normalizeValue (p : Params) {vs : List Nat} {i : Nat} (hi : i < vs.length) :
    (vs.map (normalizeValue p)).getD i 0 = normalizeValue p (vs.getD i 0) := by
  simp [List.getD_eq_getElem?_getD, hi]

/-- A global bit of what PACK gives: in field `g div BITWIDTH` the bit of that element's code, past the fields 0. -/
theorem bufBit_pack {p : Params} {vs : List Nat} (hn : vs.length = p.n) (g : Nat) :
    bufBit (pack p vs) g =
      (decide (g < p.n * p.bitWidth) &&
        (normalizeValue p (vs.getD (g / p.bitWidth) 0)).testBit (g % p.bitWidth)) := by
  rw [pack, bufBit_packCodes, packedBit]
  by_cases hg : g < p.n * p.bitWidth
  · rw [getD_map_normalizeValue p (hn ▸ Nat.div_lt_of_lt_mul (Nat.mul_comm .. ▸ hg))]
  · simp [hg]

theorem bufBit_pack_field {p : Params} {vs : List Nat} (hn : vs.length = p.n) {i k : Nat} (hi : i < p.n)
    (hk : k < p.bitWidth) :
    bufBit (pack p vs) (i * p.bitWidth + k) = (normalizeValue p (vs.getD i 0)).testBit k := by
  rw [pack, bufBit_packCodes, packedBit_field p _ hi hk, getD_map_normalizeValue p (hn ▸ hi)]

theorem bufBit_pack_padding {p : Params} {vs : List Nat} (hn : vs.length = p.n) {g : Nat}
    (hg : p.n * p.bitWidth ≤ g) : bufBit (pack p vs) g = false := by
  simp [bufBit_pack hn, hg.not_gt]

/-- A sum of `n` fields, each of `w` bits, has `n·w` bits. -/
theorem sum_fields_lt {w : Nat} {f : Nat → Nat} (hf : ∀ i, f i < 2 ^ w) (n : Nat) :
    ∑ i ∈ Finset.range n, f i * 2 ^ (i * w) < 2 ^ (n * w) := by
  induction n with
  | zero => simp
  | succ n ih =>
    have htop : (f n + 1) * 2 ^ (n * w) ≤ 2 ^ w * 2 ^ (n * w) := Nat.mul_le_mul_right _ (hf n)
    rw [Finset.sum_range_succ, Nat.succ_mul, Nat.add_comm (n * w), pow_add]
    linarith

/-- Fields of `w` bits put side by side do not overlap: bit `g` of their sum is bit `g mod w` of field `g div w`. -/
theorem testBit_sum_fields {w : Nat} {f : Nat → Nat} (hf : ∀ i, f i < 2 ^ w) (n g : Nat) :
    (∑ i ∈ Finset.range n, f i * 2 ^ (i * w)).testBit g =
      (decide (g < n * w) && (f (g / w)).testBit (g % w)) := by
  induction n with
  | zero => simp
  | succ n ih =>
    rw [Finset.sum_range_succ, Nat.add_comm, Nat.mul_comm (f n), Nat.testBit_two_pow_mul_add _ (sum_fields_lt hf n),
      Nat.succ_mul]
    by_cases hlow : g < n * w
    · have hg : g < n * w + w := by omega
      simp [ih, hlow, hg]
    · obtain ⟨k, rfl⟩ := Nat.exists_eq_add_of_le (not_lt.1 hlow)
      by_cases hk : k < w
      · have hdiv : (n * w + k) / w = n := by
          rw [Nat.mul_comm, Nat.mul_add_div (by omega), Nat.div_eq_of_lt hk, Nat.add_zero]
        have hmod : (n * w + k) % w = k := by rw [Nat.mul_comm, Nat.mul_add_mod, Nat.mod_eq_of_lt hk]
        simp [hk, hdiv, hmod]
      · have hzero : (f n).testBit k = false :=
          Nat.testBit_lt_two_pow ((hf n).trans_le (Nat.pow_le_pow_right (by decide) (not_lt.1 hk)))
        simp [hk, hzero]

/-- R120's second form: the buffer as a little-endian number is the sum of the codes in their places. -/
theorem natOfBytes_pack (c : Config) {vs : List Nat} (hn : vs.length = c.n) :
    natOfBytes (pack c.toParams vs) =
      ∑ i ∈ Finset.range c.n, normalizeValue c.toParams (vs.getD i 0) * 2 ^ (i * c.bitWidth) := by
  apply Nat.eq_of_testBit_eq
  intro g
  rw [testBit_natOfBytes, bufBit_pack hn,
    testBit_sum_fields (f := fun i => normalizeValue c.toParams (vs.getD i 0)) fun i => normalize_lt c _]

/-! ### UNPACK -/

/-- R124's second form: a field is a quotient and remainder of the buffer's little-endian number. -/
theorem rawCode_eq_div_mod (p : Params) (pb : List Byte) (i : Nat) :
    rawCode p pb i = natOfBytes pb / 2 ^ (i * p.bitWidth) % 2 ^ p.bitWidth := by
  apply Nat.eq_of_testBit_eq
  intro k
  rw [testBit_rawCode, Nat.testBit_mod_two_pow, Nat.testBit_div_two_pow, testBit_natOfBytes, Nat.add_comm k]

theorem getElem?_unpack {p : Params} (pb : List Byte) {i : Nat} (hi : i < p.n) :
    (unpack p pb)[i]? = some (denormalizeCode p (rawCode p pb i)) := by
  simp [unpack, hi]

/-- R127 (general form): each field read back is its code, and DENORMALIZE of a code is the value clamped. -/
theorem unpack_pack (c : Config) {vs : List Nat} (hn : vs.length = c.n) :
    unpack c.toParams (pack c.toParams vs) = vs.map (clampTo c.minimal c.maximum) := by
  apply List.ext_getElem (by simp [hn])
  intro i hi _
  have hin : i < c.n := by simpa using hi
  have hlen : i < vs.length := hn ▸ hin
  have hcode : rawCode c.toParams (pack c.toParams vs) i = normalizeValue c.toParams vs[i] := by
    rw [pack, rawCode_packCodes _ _ hin, getD_map_normalizeValue _ hlen, Nat.mod_eq_of_lt (normalize_lt c _),
      List.getD_eq_getElem _ _ hlen]
  simp [unpack, hcode, denormalizeCode_normalizeValue]

theorem map_clampTo_of_mem {lo hi : Nat} {vs : List Nat} (h : ∀ v ∈ vs, lo ≤ v ∧ v ≤ hi) :
    vs.map (clampTo lo hi) = vs :=
  (List.map_congr_left fun v hv => clampTo_of_mem (h v hv).1 (h v hv).2).trans (List.map_id vs)

/-! ### The two lines of the round trip -/

/-- PACK of typed values written out. -/
theorem runLine_pack {s : State} {vs : List Nat} (hb : s.hostBusy = false)
    (hv : fitsValues s.cfg.toParams vs = true) :
    runLine (.command (encodeCode .pack) (.values (.lit vs))) s =
      .next (s.answer { pb := some (pack s.cfg.toParams vs) }).closePorts :=
  runLine_pure (p := { emptyPorts s.cfg.toParams with values := vs }) rfl hb
    (by simp [loadOperands, Args.hasShape, Instr.shape, loadArgs, resolve, accept, hv])

/-- UNPACK of the PackedBuffer the host kept last. -/
theorem runLine_unpack_kept {s : State} {pb : List Byte} (hb : s.hostBusy = false)
    (hk : s.hostVars[0]? = some { pb := some pb }) (hl : pb.length = s.cfg.packedSize) :
    runLine (.command (encodeCode .unpack) (.pb (.kept 0))) s =
      .next (s.answer { values := some (unpack s.cfg.toParams pb) }).closePorts :=
  runLine_pure (p := { emptyPorts s.cfg.toParams with pb := pb }) rfl hb
    (by simp [loadOperands, Args.hasShape, Instr.shape, loadArgs, resolve, Results.byteSeq, accept, fitsPacked, hk, hl])

/-- Settles O10: the two lines are PACK and UNPACK of its result, and `unpack_pack` says what that is. -/
theorem unpackOfPackIsClamp : Obligations.UnpackOfPackIsClamp := by
  unfold Obligations.UnpackOfPackIsClamp
  refine ⟨fun s vs hb hv => ?_, unpack_pack Config.reference rfl⟩
  have hrun := runLine_unpack_kept (s := (s.answer { pb := some (pack s.cfg.toParams vs) }).closePorts) hb rfl
    (pack_length _ _)
  refine ⟨_, (runLines_cons_next (runLine_pack hb hv)).trans (runLines_one hrun), ?_⟩
  have hclamp := unpack_pack s.cfg (fitsValues_length hv)
  refine ⟨by simp [hclamp], fun hin => ?_⟩
  simp [hclamp, map_clampTo_of_mem hin]

/-- Settles O8: the bits by `bufBit_pack`, the sum by `natOfBytes_pack`, the example by evaluation. -/
theorem packWritesEveryField : Obligations.PackWritesEveryField := by
  unfold Obligations.PackWritesEveryField
  refine ⟨fun s hn => ?_, by decide⟩
  exact ⟨pack s.cfg.toParams s.ports.values, exec_pure_eq rfl s, pack_length _ _,
    fun _ _ => bufBit_pack_field hn, fun _ => bufBit_pack_padding hn, natOfBytes_pack s.cfg hn⟩

/-- Settles O9: the raw code of each field, bit by bit and as quotient and remainder. -/
theorem unpackReadsEveryField : Obligations.UnpackReadsEveryField := by
  unfold Obligations.UnpackReadsEveryField
  refine ⟨fun s _ => ?_, by decide⟩
  refine ⟨unpack s.cfg.toParams s.ports.pb, exec_pure_eq rfl s, unpack_length _ _, fun i hi => ?_⟩
  refine ⟨rawCode s.cfg.toParams s.ports.pb i, getElem?_unpack _ hi, fun k hk => ?_, rawCode_eq_div_mod _ _ _⟩
  simp [testBit_rawCode, hk]

/-- Settles O55: `pureResults` does not read the state. -/
theorem pureOperationsTouchNoState : Obligations.PureOperationsTouchNoState := by
  unfold Obligations.PureOperationsTouchNoState
  intro i s h
  refine ⟨pureResults i s.cfg s.ports, exec_pure_eq h s, fun t hcfg hports => ?_⟩
  rw [← hcfg, ← hports]
  exact exec_pure_eq h t

end Sys2Proof.Machine
end

section
/-! The family of 42_hasher.md: the variant CALC runs (R141), and the determinism of the hasher operations (R150). -/

namespace Sys2Proof.Machine

theorem calculate_hwcrc {p : Params} (h : p.hashSel = .hwcrc) (bytes : List Byte) :
    calculate p bytes = hwCrc p.hwCrc bytes := by
  rw [calculate, h]

theorem calculate_crc8 {p : Params} (h : p.hashSel = .crc8) (bytes : List Byte) :
    calculate p bytes = crc8 p.crc8Poly bytes := by
  rw [calculate, h]

theorem calculate_sum {p : Params} (h : p.hashSel = .sum) (bytes : List Byte) :
    calculate p bytes = sum8 bytes := by
  rw [calculate, h]

/-- Of the state, a hasher operation reads the configuration and the bytes within the stated length only (R150). -/
theorem exec_hasher {i : Instr} (h : i = .calculate ∨ i = .calcHwcrc ∨ i = .calcCrc8 ∨ i = .calcSum) :
    ∃ hash : Config → List Byte → Byte,
      ∀ s : State, exec i s = .next (s.answer { digest := some (hash s.cfg (bufferOperand s.ports)) }) := by
  obtain rfl | rfl | rfl | rfl := h
  · exact ⟨fun c => calculate c.toParams, exec_pure_eq rfl⟩
  · exact ⟨fun c => hwCrc c.hwCrc, exec_pure_eq rfl⟩
  · exact ⟨fun c => crc8 c.crc8Poly, exec_pure_eq rfl⟩
  · exact ⟨fun _ => sum8, exec_pure_eq rfl⟩

/-- Settles O18: by `exec_hasher` the digest is one function of what the two states have in common. -/
theorem hashersAreDeterministic : Obligations.HashersAreDeterministic := by
  unfold Obligations.HashersAreDeterministic
  intro i s t hi hcfg hbytes
  obtain ⟨hash, hexec⟩ := exec_hasher hi
  have hsame : hash t.cfg (bufferOperand t.ports) = hash s.cfg (bufferOperand s.ports) := by
    rw [hcfg, bufferOperand, bufferOperand, hbytes]
  exact ⟨hash s.cfg (bufferOperand s.ports), hexec s, hsame ▸ hexec t⟩

/-- Settles O14: the digest is `calculate` of the operand, which each selection names; the example by evaluation. -/
theorem calcRunsTheSelectedVariant : Obligations.CalcRunsTheSelectedVariant := by
  unfold Obligations.CalcRunsTheSelectedVariant
  refine ⟨fun s => ?_, by decide +kernel⟩
  exact ⟨calculate s.cfg.toParams (bufferOperand s.ports), exec_pure_eq rfl s,
    fun h => calculate_hwcrc h _, fun h => calculate_crc8 h _, fun h => calculate_sum h _⟩

end Sys2Proof.Machine
end

section
/-! The family of 43_serializer.md: DESERIALIZE's checks (R165, R168), a whole SERIALIZE (R160), and the round trip of a
frame (R172). -/

namespace Sys2Proof.Machine

/-! ### DESERIALIZE -/

/-- A whole frame stands where DESERIALIZE looks, its payload first and its digest after it: it is unpacked (R165). -/
theorem deserialize_payload_digest (p : Params) {pb : List Byte} (hl : pb.length = p.packedSize) :
    deserialize p (pb ++ [calculate p pb]) p.frameSize = .ok (unpack p pb) := by
  have hpayload : (pb ++ [calculate p pb]).take p.packedSize = pb := List.take_left' hl
  have hdigest : (pb ++ [calculate p pb]).getD p.packedSize 0 = calculate p pb := by
    simp [List.getD_eq_getElem?_getD, ← hl]
  rw [deserialize_match le_rfl (by rw [hpayload, hdigest]), hpayload]

/-- R172, on the bytes: a frame of N values deserializes to the values clamped. -/
theorem deserialize_frameOf (c : Config) {vs : List Nat} (hn : vs.length = c.n) :
    deserialize c.toParams (frameOf c.toParams vs) c.frameSize = .ok (vs.map (clampTo c.minimal c.maximum)) := by
  rw [frameOf, deserialize_payload_digest _ (pack_length _ _), unpack_pack c hn]

@[simp] theorem frameOf_length (p : Params) (vs : List Nat) : (frameOf p vs).length = p.frameSize := by
  simp [frameOf, p.frameSize_eq]

/-- Settles O25: each clause is one outcome of `deserialize`; the examples by evaluation. -/
theorem deserializeChecksBeforeUnpacking : Obligations.DeserializeChecksBeforeUnpacking := by
  unfold Obligations.DeserializeChecksBeforeUnpacking
  refine ⟨fun s _ => ⟨_, exec_pure_eq rfl s, fun hshort => ?_, fun received hlong hreceived => ?_⟩,
    by decide +kernel, by decide +kernel, by decide⟩
  · simp only [pureResults, deserialize_short hshort, deserializeResults]
  · have hbyte : s.ports.bytes.getD s.cfg.packedSize 0 = received := by
      rw [List.getD_eq_getElem?_getD, hreceived, Option.getD_some]
    refine ⟨fun hmismatch => ?_, fun hmatch => ?_⟩
    · simp only [pureResults, deserialize_mismatch hlong (hbyte ▸ hmismatch), deserializeResults]
    · simp only [pureResults, deserialize_match hlong (hmatch.trans hbyte.symm), deserializeResults]

/-! ### SERIALIZE -/

/-- The two sink writes of a SERIALIZE that reaches its digest write, for every pair of counts the sink answers (R160,
steps S2 and S3): the accepted bytes are appended, and the host gets `ok`, true only of two complete writes. -/
theorem runLines_sinkAnswers_both {s : State} {w1 w2 : Nat} (hp : s.serPhase = .writePayload)
    (h1 : w1 ≤ s.cfg.packedSize) (h2 : w2 ≤ s.cfg.digestSize)
    (hgoes : ¬(w1 ≠ s.cfg.packedSize ∧ s.cfg.digestAfterShort = .never)) :
    runLines [sinkAnswers w1, sinkAnswers w2] s =
      .next (((s.appendSink (s.serPb.take w1)).appendSink ([s.serDigest].take w2)).endSerialize.returnOk
        (decide (w1 = s.cfg.packedSize) && decide (w2 = s.cfg.digestSize)) w2).closePorts := by
  rw [runLines_cons_next (runLine_sinkAnswers_payload hp h1),
    State.afterPayload_goes (s := s.appendSink (s.serPb.take w1)) hgoes]
  exact runLines_one (runLine_sinkAnswers_digest rfl h2)

/-- A whole SERIALIZE that reaches its digest write (R160): the bytes presented are the PackedBuffer and its digest. -/
theorem runLines_send_both {s : State} {vs : List Nat} {w1 w2 : Nat} (hb : s.hostBusy = false)
    (hv : fitsValues s.cfg.toParams vs = true) (h1 : w1 ≤ s.cfg.packedSize) (h2 : w2 ≤ s.cfg.digestSize)
    (hgoes : ¬(w1 ≠ s.cfg.packedSize ∧ s.cfg.digestAfterShort = .never)) :
    runLines (send (.lit vs) ++ [sinkAnswers w1, sinkAnswers w2]) s =
      .next (((s.appendSink ((pack s.cfg.toParams vs).take w1)).appendSink
        ([calculate s.cfg.toParams (pack s.cfg.toParams vs)].take w2)).endSerialize.returnOk
          (decide (w1 = s.cfg.packedSize) && decide (w2 = s.cfg.digestSize)) w2).closePorts := by
  rw [send, runLines_append_next (runLines_one (runLine_send hb hv))]
  exact runLines_sinkAnswers_both rfl h1 h2 hgoes

/-- Both writes complete: a frame is appended to SINKLOG and the host gets `ok = 1`. -/
theorem runLines_send_complete {s : State} {vs : List Nat} (hb : s.hostBusy = false)
    (hv : fitsValues s.cfg.toParams vs = true) :
    runLines (send (.lit vs) ++ [sinkAnswers s.cfg.packedSize, sinkAnswers s.cfg.digestSize]) s =
      .next ((s.appendSink (frameOf s.cfg.toParams vs)).endSerialize.returnOk true s.cfg.digestSize).closePorts := by
  have hpayload : (pack s.cfg.toParams vs).take s.cfg.packedSize = pack s.cfg.toParams vs :=
    List.take_of_length_le (pack_length _ _).le
  have hdigest (d : Byte) : [d].take s.cfg.digestSize = [d] := rfl
  rw [runLines_send_both hb hv le_rfl le_rfl (by simp), hpayload, hdigest]
  simp [State.appendSink, frameOf]

/-- A SERIALIZE that has returned leaves HOST free if no READ was in progress. -/
theorem hostBusy_returned {s : State} (hb : s.hostBusy = false) (bytes : List Byte) (ok : Bool) (count : Nat) :
    ((s.appendSink bytes).endSerialize.returnOk ok count).closePorts.hostBusy = false :=
  (State.hostBusy_eq_false _).2 ⟨(s.hostBusy_eq_false.1 hb).1, rfl⟩

/-- Settles O27: the frame appended is `frameOf` of the values, and `deserialize_frameOf` says what it gives back. -/
theorem serializeThenDeserializeIsClamp : Obligations.SerializeThenDeserializeIsClamp := by
  unfold Obligations.SerializeThenDeserializeIsClamp
  refine ⟨fun s vs hb hv => ?_, deserialize_frameOf Config.reference rfl⟩
  have hrun := runLine_deserialize (hostBusy_returned hb (frameOf s.cfg.toParams vs) true s.cfg.digestSize)
    (frameOf_length s.cfg.toParams vs).ge
  refine ⟨_, _, frameOf s.cfg.toParams vs, runLines_send_complete hb hv, rfl, rfl, frameOf_length _ _, hrun, ?_⟩
  have hback := deserialize_frameOf s.cfg (fitsValues_length hv)
  exact congrArg (fun d => deserializeResults d :: ({ ok := some true } : Results) :: s.hostVars) hback

end Sys2Proof.Machine
end

section
/-! The family of 44_transport.md: READ's refusal by length and its wait (R181, R184), HANDLER's completion path (R199),
and the table of what writes RDY (R180). -/

namespace Sys2Proof.Machine

/-! ### READ -/

/-- READ of a length that is not the region's answers 0, in every state (R181). -/
theorem exec_read_of_length_ne {s : State} (h : s.ports.expectedLength ≠ s.cfg.regionSize) :
    exec .read s = .next (s.answer { bytesRead := some 0 }) := if_pos h

/-- R184: the wait step that finds RDY full leads to the mask step. -/
theorem readStep_wait_full {s : State} (hp : s.rdPhase = .wait) (hr : s.rdy = .full) :
    readStep s = .next { s with rdPhase := .mask } := by
  simp [readStep, readWait, hp, hr]

/-- R184: the wait step that finds RDY idle changes nothing. -/
theorem readStep_wait_idle {s : State} (hp : s.rdPhase = .wait) (hr : s.rdy = .idle) : readStep s = .next s := by
  simp [readStep, readWait, hp, hr]

/-- R187: the resample step is taken whatever the other fields hold. -/
theorem readStep_resample {s : State} (hp : s.rdPhase = .resample) : readStep s = .next (readResample s) := by
  simp [readStep, hp]

/-- R184, R201: wait steps alone do not end the wait. The first leaves the state with its ports emptied, and each
further one leaves that very state. -/
theorem runLines_wait_idle {s : State} (hp : s.rdPhase = .wait) (hr : s.rdy = .idle) (k : Nat) :
    runLines (List.replicate (k + 1) .readStep) s = .next s.closePorts := by
  induction k generalizing s with
  | zero => exact runLines_one (runLine_readStep (readStep_wait_idle hp hr))
  | succ k ih =>
    rw [List.replicate_succ, runLines_step_next (readStep_wait_idle hp hr)]
    exact ih (s := s.closePorts) hp hr

/-- Settles O29: 0 is no region's size, and the length is tested before anything else. -/
theorem readOfAnotherLengthReturnsZero : Obligations.ReadOfAnotherLengthReturnsZero := by
  unfold Obligations.ReadOfAnotherLengthReturnsZero
  exact fun s => ⟨s.cfg.regionSize_pos.ne', exec_read_of_length_ne⟩

/-- Settles O31: one wait step by the value of RDY, any number of them by induction. -/
theorem readWaitsUntilFull : Obligations.ReadWaitsUntilFull := by
  unfold Obligations.ReadWaitsUntilFull
  exact fun s hp => ⟨readStep_wait_full hp, fun hr => ⟨readStep_wait_idle hp hr, runLines_wait_idle hp hr⟩⟩

/-! ### HANDLER -/

/-- R199: with no error indicated, HANDLER serves the completion. -/
theorem exec_handler_completes {s : State} (him : s.im = false) (hte : s.te = false) (htc : s.tc = true) :
    exec .handler s = .next ((s.setTc false).setRdy .full) := by
  have henabled : s.handlerEnabled = true := s.handlerEnabled_iff.2 ⟨him, .inl htc⟩
  simp [exec, execHandler, henabled, State.returnFromHandler, State.takeCompletionSignal, hte]

/-- R198: without a request HANDLER has no step. -/
theorem exec_handler_not_requested {s : State} (hte : s.te = false) (htc : s.tc = false) :
    exec .handler s = .refused .handlerNotEnabled := by
  have hdisabled : s.handlerEnabled = false := by simp [State.handlerEnabled, State.irq, htc, hte]
  simp [exec, execHandler, hdisabled]

/-- Settles O39: the completion path clears the only indicator that was set, so no request is left. -/
theorem handlerRaisesFullOnCompletion : Obligations.HandlerRaisesFullOnCompletion := by
  unfold Obligations.HandlerRaisesFullOnCompletion
  exact fun s him hte htc => ⟨exec_handler_completes him hte htc, exec_handler_not_requested hte rfl⟩

/-! ### What writes RDY -/

/-- A line of an event that takes a step executes that event. -/
theorem takeTurn_of_isEventOf {i : Instr} {line : ScriptLine} {s t : State} (hev : isEventOf i line = true)
    (h : takeTurn line s = .next t) : ∃ p, exec i { s with ports := p } = .next t := by
  cases line with
  | command code args => cases hev
  | readStep => cases hev
  | event code input =>
    rcases runEvent_cases h with ⟨r, hr⟩ | ⟨j, p, hdecode, _, _, hexec⟩
    · cases hr
    · have hcode : decodeCode code = some i := beq_iff_eq.1 hev
      obtain rfl : j = i := Option.some.inj (hdecode.symm.trans hcode)
      exact ⟨p, hexec.symm⟩

/-- A step is its line's turn, taken without the line; then the ports are emptied (R24). -/
theorem step_takeTurn {s t : State} (h : step s = .next t) : ∃ script drawn u,
    takeTurn (nextLine s).1 { s with script := script, drawn := drawn } = .next u ∧ t = u.closePorts := by
  obtain ⟨u, hturn, ht⟩ := endStep_next h
  rw [nextLine_frame s] at hturn
  exact ⟨_, _, u, hturn, ht⟩

/-- HANDLER's row of R180's table. -/
theorem step_handler_rdy {s t : State} (h : step s = .next t) (hev : isEventOf .handler (nextLine s).1 = true) :
    (s.te = false → s.tc = true ∧ t.rdy = .full) ∧ (s.te = true → t.rdy = s.rdy) := by
  obtain ⟨script, drawn, u, hturn, rfl⟩ := step_takeTurn h
  obtain ⟨p, hexec⟩ := takeTurn_of_isEventOf hev hturn
  obtain ⟨_, ⟨hte, rfl⟩ | ⟨hte, htc, rfl⟩⟩ := execHandler_next hexec
  · exact ⟨fun hno => absurd (hte.symm.trans hno) (by decide), fun _ => rfl⟩
  · exact ⟨fun _ => ⟨htc, rfl⟩, fun hyes => absurd (hte.symm.trans hyes) (by decide)⟩

/-- The resample's row of R180's table. -/
theorem step_resample_rdy {s t : State} (h : step s = .next t) (hline : (nextLine s).1 = .readStep)
    (hp : s.rdPhase = .resample) : t.rdy = readinessOf s.tc := by
  obtain ⟨script, drawn, u, hturn, rfl⟩ := step_takeTurn h
  rw [hline] at hturn
  cases (readStep_resample (s := { s with script := script, drawn := drawn }) hp).symm.trans hturn
  rfl

/-- RESET's row of R180's table. -/
theorem step_reset_rdy {s t : State} (h : step s = .next t) (hev : isEventOf .reset (nextLine s).1 = true) :
    t.rdy = .idle := by
  obtain ⟨script, drawn, u, hturn, rfl⟩ := step_takeTurn h
  obtain ⟨p, hexec⟩ := takeTurn_of_isEventOf hev hturn
  cases hexec
  rfl

/-- The rest of R180's table: a step that is neither HANDLER, nor RESET, nor a resample leaves RDY. -/
theorem TransportDoes.rdy_eq {line : ScriptLine} {s t : State} (d : TransportDoes line s t)
    (hhandler : isEventOf .handler line = false) (hreset : isEventOf .reset line = false)
    (hresample : ¬(line = .readStep ∧ s.rdPhase = .resample)) : t.rdy = s.rdy := by
  cases d with
  | resamples isStep ph _ => exact absurd ⟨isStep, ph⟩ hresample
  | completes ev => exact absurd (ev.symm.trans hhandler) (by decide)
  | resets ev => exact absurd (ev.symm.trans hreset) (by decide)
  | quiet eq | masks _ _ eq | unmasks _ _ eq | stores _ _ _ eq | errs _ eq | drops _ _ _ eq =>
    exact congrArg Transport.rdy eq

/-- Settles O42: one lemma per row of the table; that the resample finds RDY full is the invariant's clause. -/
theorem readinessIsWrittenAsItsTableSays : Obligations.ReadinessIsWrittenAsItsTableSays := by
  unfold Obligations.ReadinessIsWrittenAsItsTableSays
  intro s t hinv h
  refine ⟨step_handler_rdy h, fun hline hp => ?_, step_reset_rdy h, (step_transport h).rdy_eq⟩
  exact ⟨hinv.fullWhileReading (.inr (.inr hp)), step_resample_rdy h hline hp⟩

end Sys2Proof.Machine
end

section
/-! The family of 60_exceptions.md: HANDLER's two causes, the error served first (R217). -/

namespace Sys2Proof.Machine

/-- R198, R217: with the error indicated, HANDLER serves it, whether or not a completion is indicated too. -/
theorem exec_handler_drops {s : State} (him : s.im = false) (hte : s.te = true) :
    exec .handler s = .next (s.setTe false) := by
  have henabled : s.handlerEnabled = true := s.handlerEnabled_iff.2 ⟨him, .inr hte⟩
  simp [exec, execHandler, henabled, State.returnFromHandler, State.takeCompletionSignal, hte]

/-- Settles O38: the error path leaves IM and TC, so a completion indicated too is what the next HANDLER step finds
alone. -/
theorem handlerServesTheErrorFirst : Obligations.HandlerServesTheErrorFirst := by
  unfold Obligations.HandlerServesTheErrorFirst
  intro s him hte
  have hnext (htc : s.tc = true) := exec_handler_completes (s := s.setTe false) him rfl htc
  exact ⟨exec_handler_drops him hte, hnext⟩

end Sys2Proof.Machine
end

section
/-! The invariant of Safety.lean: it holds right after reset, and every line keeps it, one lemma per kind of line. -/

namespace Sys2Proof.Machine

/-- R202 (b): with no READ in progress nothing is masked. -/
theorem Inv.im_of_idle {s : State} (h : Inv s) (hp : s.rdPhase = .idle) : s.im = false := by
  simpa [hp] using h.maskedExactly

/-! ### The clauses under each kind of line -/

theorem Inv.answer {s : State} (h : Inv s) (p : Ports) {r : Results} (fit : r.fit s.cfg.toParams) :
    Inv (({ s with ports := p } : State).answer r).closePorts :=
  { h with
    portsEmpty := ⟨rfl, rfl⟩
    keptTyped := List.forall_mem_cons.2 ⟨fit, h.keptTyped⟩ }

theorem Inv.startSerialize {s : State} (h : Inv s) (p : Ports) (hb : s.hostBusy = false) :
    Inv (({ s with ports := p } : State).startSerialize).closePorts :=
  { h with
    oneOperation := .inl (s.hostBusy_eq_false.1 hb).1
    notSerializing := fun hidle => nomatch hidle
    serializing := fun _ => ⟨pack_length _ _, rfl⟩
    firstCount := ⟨fun _ => rfl, fun hdigest => nomatch hdigest⟩
    portsEmpty := ⟨rfl, rfl⟩ }

theorem Inv.startRead {s : State} (h : Inv s) (p : Ports) (hb : s.hostBusy = false) :
    Inv ({ ({ s with ports := p } : State).clearResults with rdPhase := .wait } : State).closePorts := by
  obtain ⟨hidle, hser⟩ := s.hostBusy_eq_false.1 hb
  exact { h with
    maskedExactly := by simp [h.im_of_idle hidle]
    fullWhileReading := by simp
    oneOperation := .inr hser
    notCopying := fun _ => h.notCopying (.inl hidle)
    copying := by simp
    copied := by simp
    portsEmpty := ⟨rfl, rfl⟩ }

theorem Inv.closePorts {s : State} (h : Inv s) : Inv s.closePorts := { h with portsEmpty := ⟨rfl, rfl⟩ }

/-- A byte stored in the region: what was written before is still written. -/
theorem Inv.putSlot {s : State} (h : Inv s) {x : Nat} (hx : x < s.cfg.regionSize) (b : Byte) :
    Inv (s.putSlot x b) := by
  have hkept (y : Nat) (hy : s.written y = true) : (s.putSlot x b).written y = true := by
    simp [written_putSlot, hy]
  exact { h with
    slotCanonical := Mem.wf_write _ _ _ h.slotCanonical
    slotInRegion := fun y hy => by
      rw [written_putSlot, Bool.or_eq_true, decide_eq_true_eq] at hy
      exact hy.elim (fun hyx => hyx ▸ hx) (h.slotInRegion y)
    periodStored := fun y hy => hkept y (h.periodStored y hy)
    regionStored := fun hsignalled y hy => hkept y (h.regionStored hsignalled y hy) }

/-- R195: a byte stored at WIDX extends the period by one; the last one completes the region. -/
theorem Inv.engineStore {s : State} (h : Inv s) (p : Ports) (b : Byte) :
    Inv (({ s with ports := p } : State).engineStore b).closePorts := by
  rw [engineStore_closePorts]
  have hput := h.putSlot h.indexInRegion b
  have hperiod (x : Nat) (hx : x < s.widx + 1) : (s.putSlot s.widx b).written x = true := by
    rw [written_putSlot, Bool.or_eq_true, decide_eq_true_eq]
    exact (Nat.lt_succ_iff_lt_or_eq.1 hx).symm.imp_right (h.periodStored x)
  unfold State.engineStore
  split
  case isTrue hlast =>
    exact { hput with
      indexInRegion := s.cfg.regionSize_pos
      periodStored := by simp
      regionStored := fun _ x hx => hperiod x (hlast ▸ hx)
      portsEmpty := ⟨rfl, rfl⟩ }
  case isFalse hinner =>
    exact { hput with
      indexInRegion := lt_of_le_of_ne h.indexInRegion hinner
      periodStored := hperiod
      portsEmpty := ⟨rfl, rfl⟩ }

theorem Inv.setTe {s : State} (h : Inv s) (b : Bool) : Inv (s.setTe b) := { h with }

/-- R199: the completion moves from TC to RDY, and the region it signals is stored. -/
theorem Inv.completes {s : State} (h : Inv s) (htc : s.tc = true) : Inv ((s.setTc false).setRdy .full) :=
  { h with
    regionStored := fun _ => h.regionStored (.inl htc)
    fullWhileReading := fun _ => rfl }

theorem Inv.appendSink {s : State} (h : Inv s) (bytes : List Byte) : Inv (s.appendSink bytes) := { h with }

theorem Inv.endSerialize {s : State} (h : Inv s) : Inv s.endSerialize :=
  { h with
    oneOperation := .inr rfl
    notSerializing := fun _ => ⟨rfl, rfl⟩
    serializing := fun hser => absurd rfl hser
    firstCount := ⟨fun _ => rfl, fun hdigest => nomatch hdigest⟩ }

/-- R218: of a SERIALIZE the host keeps `ok` alone. -/
theorem Inv.returnOk {s : State} (h : Inv s) (ok : Bool) (count : Nat) : Inv (s.returnOk ok count).closePorts :=
  { h with
    portsEmpty := ⟨rfl, rfl⟩
    keptTyped := List.forall_mem_cons.2 ⟨by simp [Results.fit], h.keptTyped⟩ }

/-- R160, R162: the first count is held for the digest write only, a short one only if that write always follows. -/
theorem Inv.afterPayload {s : State} (h : Inv s) (hp : s.serPhase = .writePayload) {w : Nat}
    (hw : w ≤ s.cfg.packedSize) : Inv (s.afterPayload w).closePorts := by
  by_cases hstop : w ≠ s.cfg.packedSize ∧ s.cfg.digestAfterShort = .never
  · rw [State.afterPayload_stops hstop.1 hstop.2]
    exact h.endSerialize.returnOk false w
  · rw [State.afterPayload_goes hstop]
    exact { h with
      oneOperation := .inl (h.oneOperation.resolve_right (by simp [hp]))
      notSerializing := fun hidle => nomatch hidle
      serializing := fun _ => h.serializing (by simp [hp])
      firstCount := ⟨fun hne => absurd rfl hne,
        fun _ => ⟨hw, fun hnever => not_not.1 fun hshort => hstop ⟨hshort, hnever⟩⟩⟩
      portsEmpty := ⟨rfl, rfl⟩ }

/-! ### The clauses under each step of a READ -/

/-- R184: the wait is over, with RDY full. -/
theorem Inv.readWait {s : State} (h : Inv s) (hp : s.rdPhase = .wait) (hr : s.rdy = .full) :
    Inv { s with rdPhase := .mask } :=
  { h with
    maskedExactly := by simpa [hp] using h.maskedExactly
    fullWhileReading := fun _ => hr
    oneOperation := .inr (h.oneOperation.resolve_left (by simp [hp]))
    notCopying := fun _ => h.notCopying (by simp [hp])
    copying := by simp
    copied := by simp }

/-- R185: the critical section begins, with nothing copied. -/
theorem Inv.readMask {s : State} (h : Inv s) (hp : s.rdPhase = .mask) : Inv (readMask s) :=
  { h with
    maskedExactly := by simp [Machine.readMask]
    fullWhileReading := fun _ => h.fullWhileReading (by simp [hp])
    oneOperation := .inr (h.oneOperation.resolve_left (by simp [hp]))
    notCopying := by simp [Machine.readMask]
    copying := fun _ => ⟨s.cfg.regionSize_pos, rfl⟩
    copied := by simp [Machine.readMask] }

theorem readCopyByte_rdPhase (s : State) :
    (readCopyByte s).rdPhase = if s.rdK + 1 = s.cfg.regionSize then .resample else .copy := rfl

/-- R186: one more byte copied; the last one ends the copy. -/
theorem Inv.readCopyByte {s : State} (h : Inv s) (hp : s.rdPhase = .copy) : Inv (readCopyByte s) := by
  obtain ⟨hk, hrx⟩ := h.copying hp
  have hlen : (s.rx ++ [s.slotByte s.rdK]).length = s.rdK + 1 := by simp [hrx]
  have him : (Machine.readCopyByte s).im = true := h.maskedExactly.2 (.inl hp)
  exact { h with
    maskedExactly := by rw [readCopyByte_rdPhase]; split <;> simp [him]
    fullWhileReading := fun _ => h.fullWhileReading (by simp [hp])
    oneOperation := .inr (h.oneOperation.resolve_left (by simp [hp]))
    notCopying := by rw [readCopyByte_rdPhase]; split <;> simp
    copying := fun hcopy => by
      have hinner : s.rdK + 1 ≠ s.cfg.regionSize := fun hlast => by simp [readCopyByte_rdPhase, hlast] at hcopy
      exact ⟨lt_of_le_of_ne hk hinner, hlen⟩
    copied := fun hdone => by
      have hlast : s.rdK + 1 = s.cfg.regionSize :=
        by_contra fun hinner => by simp [readCopyByte_rdPhase, hinner] at hdone
      exact ⟨hlast, hlen.trans hlast⟩ }

/-- R186 with frame granularity: the whole region copied. -/
theorem Inv.readCopyFrame {s : State} (h : Inv s) (hp : s.rdPhase = .copy) : Inv (readCopyFrame s) :=
  { h with
    maskedExactly := by simp [Machine.readCopyFrame, h.maskedExactly, hp]
    fullWhileReading := fun _ => h.fullWhileReading (by simp [hp])
    oneOperation := .inr (h.oneOperation.resolve_left (by simp [hp]))
    notCopying := by simp [Machine.readCopyFrame]
    copying := by simp [Machine.readCopyFrame]
    copied := fun _ => ⟨rfl, slotBytes_length s⟩ }

/-- R187: RDY becomes what TC says; the region was stored while RDY was full, and still is. -/
theorem Inv.readResample {s : State} (h : Inv s) (hp : s.rdPhase = .resample) : Inv (readResample s) :=
  { h with
    regionStored := fun _ => h.regionStored (.inr (h.fullWhileReading (by simp [hp])))
    maskedExactly := by simp [Machine.readResample, h.maskedExactly, hp]
    fullWhileReading := by simp [Machine.readResample]
    oneOperation := .inr (h.oneOperation.resolve_left (by simp [hp]))
    notCopying := by simp [Machine.readResample]
    copying := by simp [Machine.readResample]
    copied := fun _ => h.copied (.inl hp) }

/-- R188: the critical section ends, and the host keeps REGION_SIZE bytes. -/
theorem Inv.readUnmask {s : State} (h : Inv s) (hp : s.rdPhase = .unmask) : Inv (readUnmask s).closePorts := by
  have hfit : Results.fit s.cfg.toParams { bytesRead := some s.cfg.regionSize, rx := some s.rx } := by
    simp [Results.fit, (h.copied (.inr hp)).2]
  exact { h with
    maskedExactly := by simp [Machine.readUnmask]
    fullWhileReading := by simp [Machine.readUnmask]
    oneOperation := .inl rfl
    notCopying := fun _ => ⟨rfl, rfl⟩
    copying := by simp [Machine.readUnmask]
    copied := by simp [Machine.readUnmask]
    portsEmpty := ⟨rfl, rfl⟩
    keptTyped := List.forall_mem_cons.2 ⟨hfit, h.keptTyped⟩ }

theorem Inv.readStep {s t : State} (h : Inv s) (hstep : readStep s = .next t) : Inv t.closePorts := by
  rcases readStep_next hstep with ⟨_, _, rfl⟩ | ⟨hp, hr, rfl⟩ | ⟨hp, rfl⟩ | ⟨hp, _, _, rfl⟩ | ⟨hp, _, rfl⟩ |
    ⟨hp, rfl⟩ | ⟨hp, rfl⟩
  · exact h.closePorts
  · exact (h.readWait hp hr).closePorts
  · exact (h.readMask hp).closePorts
  · exact (h.readCopyByte hp).closePorts
  · exact (h.readCopyFrame hp).closePorts
  · exact (h.readResample hp).closePorts
  · exact h.readUnmask hp

/-! ### Reset, lines and steps -/

theorem inv_afterReset (c : Config) : Inv (State.afterReset c) where
  slotCanonical := rfl
  slotInRegion := by simp [State.afterReset, State.written]
  indexInRegion := c.regionSize_pos
  periodStored := by simp [State.afterReset]
  regionStored := by simp [State.afterReset]
  maskedExactly := by simp [State.afterReset]
  fullWhileReading := by simp [State.afterReset]
  oneOperation := .inl rfl
  notCopying := fun _ => ⟨rfl, rfl⟩
  copying := by simp [State.afterReset]
  copied := by simp [State.afterReset]
  notSerializing := fun _ => ⟨rfl, rfl⟩
  serializing := fun hser => absurd rfl hser
  firstCount := ⟨fun _ => rfl, fun hdigest => nomatch hdigest⟩
  portsEmpty := ⟨rfl, rfl⟩
  keptTyped := by simp [State.afterReset]

/-- R240: a RESET leaves what the state right after reset has, and what the host kept. -/
theorem Inv.execReset {s t : State} (h : Inv s) (p : Ports) (hreset : execReset { s with ports := p } = .next t) :
    Inv t.closePorts := by
  cases hreset
  exact { inv_afterReset s.cfg with keptTyped := h.keptTyped }

/-- Every kind of line keeps the invariant. -/
theorem LineDoes.keeps_inv {line : ScriptLine} {s t : State} (d : LineDoes line s t) (h : Inv s) :
    Inv t.closePorts := by
  cases d with
  | answers p r fit _ _ _ eq => exact eq ▸ h.answer p fit
  | starts p busy _ _ eq => exact eq ▸ h.startSerialize p busy
  | waits p busy _ _ eq => exact eq ▸ h.startRead p busy
  | reads _ eq => exact h.readStep eq
  | stores p _ _ eq => exact eq ▸ h.engineStore p _
  | errs p _ eq => subst eq; exact (h.setTe true).closePorts
  | drops p _ _ _ eq => subst eq; exact (h.setTe false).closePorts
  | completes p _ _ _ tc eq => subst eq; exact (h.completes tc).closePorts
  | payload p _ ph le eq =>
    subst eq
    exact afterPayload_closePorts (s := s.appendSink _) p _ ▸ (h.appendSink _).afterPayload ph le
  | digest p _ _ _ eq => subst eq; exact (h.appendSink _).endSerialize.returnOk _ p.sinkCount
  | resets p _ eq => exact h.execReset p eq

/-- The invariant says nothing of the lines still to come. -/
theorem Inv.nextLine {s : State} (h : Inv s) : Inv (nextLine s).2 := by
  rw [nextLine_frame]
  exact { h with }

/-- Settles O48: every step is a line's, and every kind of line keeps the invariant. -/
theorem everyStepKeepsTheInvariant : Obligations.EveryStepKeepsTheInvariant := by
  unfold Obligations.EveryStepKeepsTheInvariant
  intro s t h hstep
  obtain ⟨u, d, rfl⟩ := step_next hstep
  exact d.keeps_inv h.nextLine

/-- Settles O47: `State.reset` is the state right after reset of one legal configuration. -/
theorem invariantHoldsAfterReset : Obligations.InvariantHoldsAfterReset := by
  unfold Obligations.InvariantHoldsAfterReset
  exact ⟨inv_afterReset, inv_afterReset _⟩

/-- Settles O49: the invariant keeps both indices in the region, and only an index outside it faults. -/
theorem noStepFaults : Obligations.NoStepFaults := by
  unfold Obligations.NoStepFaults
  intro s f h hfault
  rcases runLine_fault hfault with ⟨hp, hout⟩ | hout
  · exact hout.not_gt (h.nextLine.copying hp).1
  · exact hout.not_gt h.nextLine.indexInRegion

end Sys2Proof.Machine
end

section
/-! The rest of 40_validator.md: VALIDATE's causes (R105, R106), BITWIDTH (R102) and DENORMALIZE's wrap (R108). -/

namespace Sys2Proof.Machine

/-- R106: bounds of `w` bits are at most `2^w - 1` apart. -/
theorem bitlen_sub_le {w lo hi : Nat} (h : hi < 2 ^ w) : bitlen (hi - lo) ≤ w :=
  bitlen_le_of_lt ((Nat.sub_le hi lo).trans_lt h)

/-- Settles O2: no range of two ELEM_WIDTH-bit bounds needs more bits than ELEM_WIDTH. -/
theorem widthCauseIsUnreachable : Obligations.WidthCauseIsUnreachable := by
  unfold Obligations.WidthCauseIsUnreachable
  intro cap c hfits
  rw [Candidate.fits, Bool.and_eq_true, decide_eq_true_eq, decide_eq_true_eq] at hfits
  have hnarrow : ¬c.elemWidth < bitlen (c.maximum - c.minimal) := (bitlen_sub_le hfits.2).not_gt
  rw [validate, cfgErr_bit]
  simp [hnarrow]

/-- Settles O4: BITWIDTH is the `bitlen` of RANGE. -/
theorem bitWidthCountsTheBitsOfRange : Obligations.BitWidthCountsTheBitsOfRange := by
  unfold Obligations.BitWidthCountsTheBitsOfRange
  intro c
  refine ⟨bitlen_eq_zero.2, fun hpos => ⟨?_, c.range_lt⟩, bitlen_sub_le c.maximum_lt⟩
  exact two_pow_le_of_bitlen (Nat.one_le_iff_ne_zero.1 hpos)

/-- Settles O1: each cause is a bit of the list `cfgErr_bit` reads. -/
theorem validateReportsEveryCause : Obligations.ValidateReportsEveryCause := by
  unfold Obligations.ValidateReportsEveryCause
  intro s
  refine ⟨validate s.cfg.rangeCapWidth s.ports.candidate, exec_pure_eq rfl s, ?_⟩
  simp only [validate, cfgErr_bit]
  simp

/-- Settles O6: `denormalize_eq` is R108's formula. -/
theorem denormalizeMasksAddsAndWraps : Obligations.DenormalizeMasksAddsAndWraps := by
  unfold Obligations.DenormalizeMasksAddsAndWraps
  exact fun s => ⟨denormalizeCode s.cfg.toParams s.ports.code, exec_pure_eq rfl s, denormalize_eq _ _,
    Nat.mod_lt _ (Nat.two_pow_pos _)⟩

end Sys2Proof.Machine
end

section
/-! The rest of 41_codec.md: what UNPACK does not read (R125), and the independence of PACK's fields (R129). -/

namespace Sys2Proof.Machine

/-- R125: a raw code is made of its field's bits alone. -/
theorem rawCode_congr {p : Params} {pb pb' : List Byte} {i : Nat}
    (h : ∀ k, k < p.bitWidth → bufBit pb (i * p.bitWidth + k) = bufBit pb' (i * p.bitWidth + k)) :
    rawCode p pb i = rawCode p pb' i := by
  apply Nat.eq_of_testBit_eq
  intro k
  rw [testBit_rawCode, testBit_rawCode]
  by_cases hk : k < p.bitWidth
  · rw [h k hk]
  · simp [hk]

/-- Bit `k` of field `i` is one of the field bits. -/
theorem field_bit_lt {w n i k : Nat} (hi : i < n) (hk : k < w) : i * w + k < n * w :=
  calc i * w + k < (i + 1) * w := by rw [Nat.succ_mul]; omega
    _ ≤ n * w := Nat.mul_le_mul_right w hi

/-- Settles O11: every raw code UNPACK reads lies among the field bits. -/
theorem unpackIgnoresPadding : Obligations.UnpackIgnoresPadding := by
  unfold Obligations.UnpackIgnoresPadding
  intro p pb pb' hagree
  refine List.map_congr_left fun i hi => congrArg (denormalizeCode p) (rawCode_congr fun k hk => ?_)
  exact hagree _ (field_bit_lt (List.mem_range.1 hi) hk)

/-- A bit outside field `i` belongs to another element. -/
theorem div_ne_of_outside_field {w i g : Nat} (h : g < i * w ∨ (i + 1) * w ≤ g) (hw : 0 < w) : g / w ≠ i := by
  rintro rfl
  rcases h with hbelow | habove
  · exact hbelow.not_ge (Nat.div_mul_le_self g w)
  · exact habove.not_gt (Nat.mul_comm w _ ▸ Nat.lt_mul_div_succ g hw)

/-- Settles O12: a bit of the buffer is a bit of its own element's code. -/
theorem packFieldsAreIndependent : Obligations.PackFieldsAreIndependent := by
  unfold Obligations.PackFieldsAreIndependent
  intro c vs i v hn hi
  have hn' : (vs.set i v).length = c.n := by simp [hn]
  refine ⟨fun g hout => ?_, fun k hk => ?_⟩
  · rw [bufBit_pack hn', bufBit_pack hn]
    by_cases hg : g < c.n * c.bitWidth
    · have hother : g / c.bitWidth ≠ i := div_ne_of_outside_field hout (Nat.pos_of_lt_mul_left hg)
      simp [List.getD_eq_getElem?_getD, List.getElem?_set_ne hother.symm]
    · simp [hg]
  · rw [bufBit_pack_field hn' hi hk]
    simp [List.getD_eq_getElem?_getD, hn, hi]

end Sys2Proof.Machine
end

section
/-! The rest of 42_hasher.md: CALC.CRC8 (R145), CALC.SUM (R148), CALC.HWCRC (R143, R144), the digests' sensitivity to one
byte (R151), and the source's two test buffers (R147). -/

namespace Sys2Proof.Machine

/-! ### The sum -/

theorem foldl_add_toNat (bytes : List Byte) (d : Byte) :
    (bytes.foldl (· + ·) d).toNat = (d.toNat + (bytes.map BitVec.toNat).sum) % 256 := by
  induction bytes generalizing d with
  | nil => simpa using (Nat.mod_eq_of_lt d.isLt).symm
  | cons b bytes ih =>
    rw [List.foldl_cons, ih, BitVec.toNat_add, List.map_cons, List.sum_cons]
    omega

/-- R148, as a number. -/
theorem sum8_toNat (bytes : List Byte) : (sum8 bytes).toNat = (bytes.map BitVec.toNat).sum % 256 := by
  rw [sum8, foldl_add_toNat]
  simp

/-- Settles O16: `sum8_toNat`, and a reordering has the same sum. -/
theorem calcSumAddsModulo256 : Obligations.CalcSumAddsModulo256 := by
  unfold Obligations.CalcSumAddsModulo256
  refine ⟨fun s => ⟨sum8 (bufferOperand s.ports), exec_pure_eq rfl s, sum8_toNat _⟩, fun x y hperm => ?_⟩
  apply BitVec.eq_of_toNat_eq
  rw [sum8_toNat, sum8_toNat, (hperm.map BitVec.toNat).sum_eq]

/-! ### The CRC-8 register -/

theorem crc8_append (poly : Byte) (x y : List Byte) :
    crc8 poly (x ++ y) = y.foldl (crc8Byte poly) (crc8 poly x) := List.foldl_append

theorem rounds_of_fixed {α : Type} {f : α → α} {c : α} (h : f c = c) (k : Nat) : rounds f k c = c := by
  induction k with
  | zero => rfl
  | succ k ih => rw [rounds, h, ih]

/-- A zero byte leaves the register at 0, whatever the polynomial. -/
theorem crc8Byte_zero (poly : Byte) : crc8Byte poly 0 0 = 0 := rounds_of_fixed rfl 8

theorem crc8_replicate_zero (poly : Byte) (k : Nat) : crc8 poly (List.replicate k 0) = 0 := by
  induction k with
  | zero => rfl
  | succ k ih => rw [List.replicate_succ', crc8_append, ih, List.foldl_cons, crc8Byte_zero, List.foldl_nil]

/-- Settles O15: the register is a fold over the bytes; the check value by evaluation. -/
theorem calcCrc8ShiftsEachByteIn : Obligations.CalcCrc8ShiftsEachByteIn := by
  unfold Obligations.CalcCrc8ShiftsEachByteIn
  refine ⟨fun s => ⟨_, rfl, exec_pure_eq rfl s⟩, fun _ => rfl, fun poly x b => ?_, fun poly x k => ?_,
    by decide +kernel⟩
  · exact crc8_append poly x [b]
  · rw [crc8_append, crc8_replicate_zero]
    rfl

/-! ### The hardware CRC -/

/-- Zero bytes above a little-endian number do not change it. -/
theorem natOfBytes_append_replicate_zero (bytes : List Byte) (k : Nat) :
    natOfBytes (bytes ++ List.replicate k 0) = natOfBytes bytes := by
  apply Nat.eq_of_testBit_eq
  intro g
  rw [testBit_natOfBytes, testBit_natOfBytes, bufBit, bufBit]
  by_cases hin : g / 8 < bytes.length
  · simp [List.getD_eq_getElem?_getD, List.getElem?_append_left hin]
  · simp [List.getD_eq_getElem?_getD, List.getElem?_append_right (not_lt.1 hin), List.getElem?_replicate, hin]
    split <;> simp

/-- The number of words that more than `q` and at most `q + 1` words of bytes make. -/
theorem wordCount_eq {w q len : Nat} (hmore : w * q < len) (hmost : len ≤ w * q + w) : (len + w - 1) / w = q + 1 := by
  apply Nat.div_eq_of_lt_le
  · rw [Nat.succ_mul, Nat.mul_comm q]
    omega
  · rw [Nat.succ_mul, Nat.succ_mul, Nat.mul_comm q]
    omega

/-- A remainder is folded in as if padded with zero bytes to a whole word (R143). -/
theorem hwWords_pad {w : Nat} {bytes : List Byte} (hw : 0 < w) (h : 0 < bytes.length % w) :
    hwWords w (bytes ++ List.replicate (w - bytes.length % w) 0) = hwWords w bytes := by
  have hlen := Nat.div_add_mod bytes.length w
  have hlt := Nat.mod_lt bytes.length hw
  have hcount : (bytes.length + w - 1) / w = bytes.length / w + 1 := wordCount_eq (by omega) (by omega)
  have hpadded : ((bytes ++ List.replicate (w - bytes.length % w) (0 : Byte)).length + w - 1) / w =
      bytes.length / w + 1 := by
    rw [List.length_append, List.length_replicate]
    exact wordCount_eq (by omega) (by omega)
  unfold hwWords
  rw [hcount, hpadded]
  refine List.map_congr_left fun j _ => ?_
  rw [List.drop_append, List.take_append, List.drop_replicate, List.take_replicate,
    natOfBytes_append_replicate_zero]

theorem hwCrcWith_pad {α : Type} {w : Nat} (init : α) (stepWord : α → Nat → α) (final : α → Byte) {bytes : List Byte}
    (hw : 0 < w) (h : 0 < bytes.length % w) :
    hwCrcWith w init stepWord final (bytes ++ List.replicate (w - bytes.length % w) 0) =
      hwCrcWith w init stepWord final bytes := by
  rw [hwCrcWith, hwWords_pad hw h, hwCrcWith]

/-- Settles O17: either unit is R143's structure, whose words `hwWords_pad` is about; the check values by evaluation. -/
theorem calcHwcrcFoldsZeroPaddedWords : Obligations.CalcHwcrcFoldsZeroPaddedWords := by
  unfold Obligations.CalcHwcrcFoldsZeroPaddedWords
  refine ⟨fun s => ⟨_, rfl, exec_pure_eq rfl s⟩, fun u x w k href hplat hrem hk => ?_, ?_,
    by decide +kernel, by decide +kernel, by decide +kernel⟩
  · subst hk
    cases u with
    | reference => obtain rfl := href rfl; exact hwCrcWith_pad 0xFFFFFFFF#32 hwStep (·.setWidth 8) (by decide) hrem
    | platform => obtain rfl := hplat rfl; exact hwCrcWith_pad _ _ _ (Nat.succ_pos _) hrem
  · have hnone : hwWords (Config.platformWordBytesPred + 1) [] = [] := by simp [hwWords]
    rw [hwCrc, hwCrcWith, hnone, List.foldl_nil]

/-! ### One byte changed -/

/-- Bit 0 of the shifted register is the polynomial's, if that was added. -/
theorem crc8Round_getLsbD_zero {poly : Byte} (hodd : poly.getLsbD 0 = true) (c : Byte) :
    (crc8Round poly c).getLsbD 0 = c.msb := by
  unfold crc8Round
  split <;> simp_all

/-- With an odd polynomial a round loses nothing: bit 0 of its result is the top bit that was shifted out. -/
theorem crc8Round_injective {poly : Byte} (hodd : poly.getLsbD 0 = true) : Function.Injective (crc8Round poly) := by
  intro c d h
  have htop : c.msb = d.msb := by
    rw [← crc8Round_getLsbD_zero hodd c, ← crc8Round_getLsbD_zero hodd d, h]
  have hshift : c <<< 1 = d <<< 1 := by
    unfold crc8Round at h
    rw [htop] at h
    split at h
    · exact (BitVec.xor_left_inj poly).1 h
    · exact h
  apply BitVec.eq_of_getLsbD_eq
  intro k hk
  by_cases hlast : k = 7
  · rw [hlast]
    exact htop
  · have hmoved (b : Byte) : (b <<< 1).getLsbD (k + 1) = b.getLsbD k := by
      have hin : k + 1 < 8 := by omega
      simp [hin, -BitVec.getLsbD_eq_getElem]
    rw [← hmoved c, ← hmoved d, hshift]

theorem rounds_injective {α : Type} {f : α → α} (hf : Function.Injective f) (k : Nat) :
    Function.Injective (rounds f k) := by
  induction k with
  | zero => exact fun _ _ h => h
  | succ k ih => exact fun _ _ h => hf (ih h)

theorem foldl_left_injective {α β : Type} {f : β → α → β} (hf : ∀ a, Function.Injective fun c => f c a) (x : List α) :
    Function.Injective fun c => x.foldl f c := by
  induction x with
  | nil => exact fun _ _ h => h
  | cons a x ih => exact fun _ _ h => hf a (ih h)

/-- Settles O19: with the register as with the sum, the changed byte gives another value, and no later byte loses the
difference. -/
theorem singleByteChangeChangesTheDigest : Obligations.SingleByteChangeChangesTheDigest := by
  unfold Obligations.SingleByteChangeChangesTheDigest
  intro x y b b' hne
  refine ⟨fun h => hne ?_, fun poly hodd h => hne ?_⟩
  · rw [sum8, sum8, List.foldl_append, List.foldl_append, List.foldl_cons, List.foldl_cons] at h
    exact add_left_cancel (foldl_left_injective (fun a => add_left_injective a) y h)
  · have hround := rounds_injective (crc8Round_injective hodd) 8
    rw [crc8_append, crc8_append, List.foldl_cons, List.foldl_cons] at h
    have hbyte (a : Byte) : Function.Injective fun c => crc8Byte poly c a :=
      fun _ _ hc => (BitVec.xor_left_inj a).1 (hround hc)
    exact (BitVec.xor_right_inj _).1 (hround (foldl_left_injective hbyte y h))

/-- Settles O20: a check of each of the 256 polynomials. -/
theorem testBuffersCollideForSevenPolynomials : Obligations.TestBuffersCollideForSevenPolynomials := by
  unfold Obligations.TestBuffersCollideForSevenPolynomials
  decide +kernel

end Sys2Proof.Machine
end

section
/-! The rest of 43_serializer.md: the frame of a range of one value (R130, R171), DESERIALIZE's reads (R166, R170), the
steps of SERIALIZE and the sink (R160 to R164), and values that are absent (R169). -/

namespace Sys2Proof.Machine

/-! ### DESERIALIZE -/

theorem unpack_of_bitWidth_zero (c : Config) (h : c.bitWidth = 0) (pb : List Byte) :
    unpack c.toParams pb = List.replicate c.n c.minimal := by
  refine List.eq_replicate_iff.2 ⟨unpack_length _ _, fun v hv => ?_⟩
  obtain ⟨i, _, rfl⟩ := List.mem_map.1 hv
  rw [denormalize_eq, h, pow_zero, Nat.mod_one, Nat.zero_add, Nat.mod_eq_of_lt c.minimal_lt]

/-- Settles O13: RANGE 0 has no bits, so the frame is one byte, compared with the digest of nothing. -/
theorem zeroWidthFrameIsTheDigestAlone : Obligations.ZeroWidthFrameIsTheDigestAlone := by
  unfold Obligations.ZeroWidthFrameIsTheDigestAlone
  intro c heq
  have hwidth : c.bitWidth = 0 := bitlen_eq_zero.2 (by rw [Params.range, heq, Nat.sub_self])
  have hsize : c.packedSize = 0 := c.packedSize_eq_zero.2 hwidth
  have hframe : c.frameSize = 1 := by rw [c.frameSize_eq, hsize]
  have hunpack := unpack_of_bitWidth_zero c hwidth
  refine ⟨hframe, fun vs => ?_, hunpack [], fun b rest length hlen => ⟨fun hb => ?_, fun hb => ?_⟩, fun hsel => ?_,
    fun hsel hunit => ?_⟩
  · exact List.eq_nil_of_length_eq_zero (by rw [pack_length, hsize])
  · rw [deserialize_match (hframe.trans_le hlen) (by simp [hsize, hb]), hunpack]
  · rw [deserialize_mismatch (hframe.trans_le hlen) (by simpa [hsize] using Ne.symm hb)]
  · rcases hsel with hsel | hsel
    · rw [calculate_crc8 hsel]; rfl
    · rw [calculate_sum hsel]; rfl
  · rw [calculate_hwcrc hsel, hunit]
    decide +kernel

/-- Settles O26: the payload and the byte after it are read from the first FRAME_SIZE bytes. -/
theorem deserializeReadsOnlyTheFrame : Obligations.DeserializeReadsOnlyTheFrame := by
  unfold Obligations.DeserializeReadsOnlyTheFrame
  intro p bytes bytes' length hagree
  by_cases hshort : length < p.frameSize
  · rw [deserialize_short hshort, deserialize_short hshort]
  · have hframe := hagree (not_lt.1 hshort)
    rw [p.frameSize_eq] at hframe
    have hpayload : bytes.take p.packedSize = bytes'.take p.packedSize := by
      simpa [List.take_take] using congrArg (List.take p.packedSize) hframe
    have hdigest : bytes.getD p.packedSize 0 = bytes'.getD p.packedSize 0 := by
      simpa [List.getD_eq_getElem?_getD, List.getElem?_take] using congrArg (·.getD p.packedSize 0) hframe
    rw [deserialize, deserialize, hpayload, hdigest]

/-! ### SERIALIZE -/

/-- R160 step S1: SERIALIZE starts whenever HOST is free. -/
theorem exec_serialize_starts {s : State} (hb : s.hostBusy = false) :
    exec .serialize s = .next s.startSerialize := by
  simp [exec, execSerialize, hb]

/-- Settles O21: HOST is busy exactly when one of the two phases is not idle. -/
theorem serializeComputesBeforeAnyWrite : Obligations.SerializeComputesBeforeAnyWrite := by
  unfold Obligations.SerializeComputesBeforeAnyWrite
  refine fun s => ⟨fun hread hser => exec_serialize_starts (s.hostBusy_eq_false.2 ⟨hread, hser⟩), fun hbusy => ?_⟩
  have hb : s.hostBusy = true := by simpa [State.hostBusy] using hbusy
  simp [exec, execSerialize, hb]

/-- R163: the sink's answer to the payload write. -/
theorem exec_sinkWrite_payload {s : State} (hp : s.serPhase = .writePayload)
    (hw : s.ports.sinkCount ≤ s.cfg.packedSize) :
    exec .sinkWrite s =
      .next ((s.appendSink (s.serPb.take s.ports.sinkCount)).afterPayload s.ports.sinkCount) := by
  simp [exec, execSinkWrite, hp, hw]

/-- R163: the sink's answer to the digest write. -/
theorem exec_sinkWrite_digest {s : State} (hp : s.serPhase = .writeDigest)
    (hw : s.ports.sinkCount ≤ s.cfg.digestSize) :
    exec .sinkWrite s =
      .next ((s.appendSink ([s.serDigest].take s.ports.sinkCount)).afterDigest s.ports.sinkCount) := by
  simp [exec, execSinkWrite, hp, hw]

/-- SERIALIZE goes on to its digest write after a complete payload write, or if it always does (R162). -/
theorem not_stops_of_complete_or_always {p : Params} {w : Nat}
    (h : w = p.packedSize ∨ p.digestAfterShort = .always) :
    ¬(w ≠ p.packedSize ∧ p.digestAfterShort = .never) := by
  rintro ⟨hshort, hnever⟩
  rcases h with hcomplete | halways
  · exact hshort hcomplete
  · exact nomatch halways.symm.trans hnever

/-- Settles O22: one clause for each outcome of SINK_WRITE. -/
theorem sinkWriteAppendsTheAcceptedPrefix : Obligations.SinkWriteAppendsTheAcceptedPrefix := by
  unfold Obligations.SinkWriteAppendsTheAcceptedPrefix
  refine fun s => ⟨fun hp hw => ⟨fun hshort hnever => ?_, fun hgoes => ?_⟩, fun hp hw => ?_, fun hp => ?_,
    fun hp hover => ?_, fun hp hover => ?_⟩
  · rw [exec_sinkWrite_payload hp hw, State.afterPayload_stops (s := s.appendSink _) hshort hnever]
    rfl
  · rw [exec_sinkWrite_payload hp hw,
      State.afterPayload_goes (s := s.appendSink _) (not_stops_of_complete_or_always hgoes)]
    rfl
  · refine ⟨decide (s.serW1 = s.cfg.packedSize) && decide (s.ports.sinkCount = s.cfg.digestSize), by simp, ?_⟩
    exact exec_sinkWrite_digest hp hw
  · simp [exec, execSinkWrite, hp]
  · simp [exec, execSinkWrite, hp, hover.not_ge]
  · simp [exec, execSinkWrite, hp, hover.not_ge]

/-- A short payload write ends SERIALIZE if the digest is never written after one (R160, R162). -/
theorem runLine_sinkAnswers_short {s : State} {w : Nat} (hp : s.serPhase = .writePayload) (hw : w ≤ s.cfg.packedSize)
    (hshort : w ≠ s.cfg.packedSize) (hnever : s.cfg.digestAfterShort = .never) :
    runLine (sinkAnswers w) s =
      .next ((s.appendSink (s.serPb.take w)).endSerialize.returnOk false w).closePorts := by
  rw [runLine_sinkAnswers_payload hp hw, State.afterPayload_stops (s := s.appendSink _) hshort hnever]

theorem runLines_send_short {s : State} {vs : List Nat} {w : Nat} (hb : s.hostBusy = false)
    (hv : fitsValues s.cfg.toParams vs = true) (hw : w ≤ s.cfg.packedSize) (hshort : w ≠ s.cfg.packedSize)
    (hnever : s.cfg.digestAfterShort = .never) :
    runLines (send (.lit vs) ++ [sinkAnswers w]) s =
      .next ((s.appendSink ((pack s.cfg.toParams vs).take w)).endSerialize.returnOk false w).closePorts := by
  rw [send, runLines_append_next (runLines_one (runLine_send hb hv))]
  exact runLines_one (runLine_sinkAnswers_short rfl hw hshort hnever)

theorem State.appendSink_appendSink (s : State) (x y : List Byte) :
    (s.appendSink x).appendSink y = s.appendSink (x ++ y) := by
  simp [State.appendSink]

/-- A SERIALIZE that has returned has changed SINKLOG, what the host kept, and its own variables. -/
theorem returned_frame (s : State) (bytes : List Byte) (ok : Bool) (count : Nat) {t : State}
    (ht : t = ((s.appendSink bytes).endSerialize.returnOk ok count).closePorts) :
    t = { s with ports := emptyPorts s.cfg.toParams, res := {}, sinkLog := t.sinkLog, hostVars := t.hostVars,
                 serPhase := t.serPhase, serPb := t.serPb, serDigest := t.serDigest, serW1 := t.serW1 } := by
  rw [ht]
  rfl

/-- Settles O23: `runLines_send_short` and `runLines_send_both`; the example by evaluation. -/
theorem serializeWritesPayloadThenDigest : Obligations.SerializeWritesPayloadThenDigest := by
  unfold Obligations.SerializeWritesPayloadThenDigest
  refine ⟨fun s vs w1 w2 hb hv h1 h2 => ⟨fun hshort hnever => ?_, fun hgoes => ?_⟩, by decide +kernel⟩
  · exact ⟨_, runLines_send_short hb hv h1 hshort hnever, rfl, rfl, rfl, returned_frame s _ _ _ rfl⟩
  · have hrun := runLines_send_both hb hv h1 h2 (not_stops_of_complete_or_always hgoes)
    rw [State.appendSink_appendSink] at hrun
    refine ⟨_, hrun, (List.append_assoc ..).symm, rfl, ?_, returned_frame s _ _ _ rfl⟩
    rw [Bool.decide_and]
    rfl

/-! ### The sink -/

theorem afterPayload_sinkLog (s : State) (w : Nat) : (s.afterPayload w).sinkLog = s.sinkLog := by
  unfold State.afterPayload; split <;> rfl

theorem readStep_sinkLog {s t : State} (h : readStep s = .next t) : t.sinkLog = s.sinkLog := by
  rcases readStep_next h with ⟨_, _, rfl⟩ | ⟨_, _, rfl⟩ | ⟨_, rfl⟩ | ⟨_, _, _, rfl⟩ | ⟨_, _, rfl⟩ | ⟨_, rfl⟩ |
    ⟨_, rfl⟩ <;> rfl

theorem engineStore_sinkLog (s : State) (b : Byte) : (s.engineStore b).sinkLog = s.sinkLog := by
  rw [engineStore_frame]

/-- Every line but a RESET appends to SINKLOG what it accepts, if anything (R36, R164). -/
theorem LineDoes.sinkLog_prefix {line : ScriptLine} {s t : State} (d : LineDoes line s t)
    (hreset : isEventOf .reset line = false) : s.sinkLog <+: t.sinkLog := by
  cases d with
  | payload p _ _ _ eq => rw [eq, afterPayload_sinkLog]; exact List.prefix_append _ _
  | digest p _ _ _ eq => rw [eq]; exact List.prefix_append _ _
  | reads _ eq => rw [readStep_sinkLog eq]
  | stores p _ _ eq => rw [eq, engineStore_sinkLog]
  | resets p ev => exact absurd (ev.symm.trans hreset) (by decide)
  | answers p _ _ _ _ _ eq | starts p _ _ _ eq | waits p _ _ _ eq | errs p _ eq | drops p _ _ _ eq
  | completes p _ _ _ _ eq => subst eq; exact List.prefix_rfl

/-- Settles O24: a step is its line's, and the line is no RESET. -/
theorem sinkIsAppendOnly : Obligations.SinkIsAppendOnly := by
  unfold Obligations.SinkIsAppendOnly
  intro s t h hreset
  obtain ⟨u, d, rfl⟩ := step_next h
  have hprefix := d.sinkLog_prefix hreset
  rwa [nextLine_frame] at hprefix

/-! ### Absent values -/

/-- A command whose operands do not load is refused for that reason. -/
theorem runLine_command_refused {i : Instr} {args : Args} {s : State} {r : Refusal} (he : i.isEvent = false)
    (hb : s.hostBusy = false) (hload : loadOperands i args s = .error r) :
    runLine (.command (encodeCode i) args) s = .refused r := by
  simp [runLine, takeTurn, runCommand, he, hb, hload, endStep]

/-- R169: a kept result without values gives no operand. -/
theorem loadOperands_absent_values {i : Instr} {s : State} {k : Nat} {r : Results} (hshape : i.shape = .values)
    (hk : s.hostVars[k]? = some r) (hr : r.values = none) :
    loadOperands i (.values (.kept k)) s = .error .absentResult := by
  simp [loadOperands, Args.hasShape, hshape, loadArgs, resolve, hk, hr]

/-- Settles O28: the values do not load, for either command. -/
theorem absentValuesAreNeverUsed : Obligations.AbsentValuesAreNeverUsed := by
  unfold Obligations.AbsentValuesAreNeverUsed
  exact fun s k r hb hk hr => ⟨runLine_command_refused rfl hb (loadOperands_absent_values rfl hk hr),
    runLine_command_refused rfl hb (loadOperands_absent_values rfl hk hr)⟩

end Sys2Proof.Machine
end

section
/-! The rest of 44_transport.md: READ step by step and whole (R181 to R189), AVAILABLE (R190), the engine (R195 to
R197), HANDLER's enabling condition (R198), what READ copies (R206) and its critical section (R69). -/

namespace Sys2Proof.Machine

/-! ### READ's steps -/

theorem readStep_idle {s : State} (hp : s.rdPhase = .idle) : readStep s = .refused .noReadInProgress := by
  simp [readStep, hp]

theorem readStep_wait {s : State} (hp : s.rdPhase = .wait) : readStep s = .next (readWait s) := by
  simp [readStep, hp]

theorem readStep_mask {s : State} (hp : s.rdPhase = .mask) : readStep s = .next (readMask s) := by
  simp [readStep, hp]

theorem readStep_copyByte {s : State} (hp : s.rdPhase = .copy) (hg : s.cfg.copyGranularity = .byte)
    (hk : s.rdK < s.cfg.regionSize) : readStep s = .next (readCopyByte s) := by
  simp [readStep, hp, hg, State.inRegion, hk]

theorem readStep_copyByte_outside {s : State} (hp : s.rdPhase = .copy) (hg : s.cfg.copyGranularity = .byte)
    (hk : ¬s.rdK < s.cfg.regionSize) : readStep s = .fault .slotOffset := by
  simp [readStep, hp, hg, State.inRegion, hk]

theorem readStep_copyFrame {s : State} (hp : s.rdPhase = .copy) (hg : s.cfg.copyGranularity = .frame) :
    readStep s = .next (readCopyFrame s) := by
  simp [readStep, hp, hg]

theorem readStep_unmask {s : State} (hp : s.rdPhase = .unmask) : readStep s = .next (readUnmask s) := by
  simp [readStep, hp]

/-- Settles O30: the three tests of READ in order, the length's passed. -/
theorem readStartsItsWait : Obligations.ReadStartsItsWait := by
  unfold Obligations.ReadStartsItsWait
  refine fun s hlen => ⟨fun hread hser => ?_, fun hread => ?_, fun hread hser => ?_⟩
  · simp [exec, execRead, hlen, hread, hser, State.clearResults]
  · simp [exec, execRead, hlen, hread]
  · simp [exec, execRead, hlen, hread, hser]

/-- Settles O32: one equation for each step. -/
theorem readCriticalSectionStepByStep : Obligations.ReadCriticalSectionStepByStep := by
  unfold Obligations.ReadCriticalSectionStepByStep
  refine fun s => ⟨readStep_mask, fun hp hg hinner => ?_, fun hp hg hlast => ?_, readStep_copyFrame,
    fun hp htc => ?_, fun hp htc => ?_, readStep_unmask⟩
  · rw [readStep_copyByte hp hg (by omega), readCopyByte, if_neg hinner.ne, ← hp]
  · rw [readStep_copyByte hp hg (by omega), readCopyByte, if_pos hlast]
  · have hrdy : readinessOf s.tc = .idle := by rw [htc]; rfl
    rw [readStep_resample hp, readResample, hrdy]
    rfl
  · have hrdy : readinessOf s.tc = .full := by rw [htc]; rfl
    rw [readStep_resample hp, readResample, hrdy]
    rfl

/-! ### The whole READ -/

/-- The first `k` bytes of SLOT as it reads. -/
def State.slotPrefix (s : State) (k : Nat) : List Byte := (List.range k).map s.slotByte

theorem State.slotPrefix_succ (s : State) (k : Nat) : s.slotPrefix (k + 1) = s.slotPrefix k ++ [s.slotByte k] := by
  simp [State.slotPrefix, List.range_succ]

/-- A state in which a READ has copied `k` bytes and has more to copy. -/
def State.copied (s : State) (k : Nat) : State := { s with rdPhase := .copy, rdK := k, rx := s.slotPrefix k }

/-- A state in which a READ has copied the region. -/
def State.copiedAll (s : State) : State :=
  { s with rdPhase := .resample, rdK := s.cfg.regionSize, rx := s.slotBytes }

theorem readCopyByte_copied_inner {s : State} {k : Nat} (h : k + 1 ≠ s.cfg.regionSize) :
    readCopyByte (s.copied k) = s.copied (k + 1) := by
  rw [State.copied, State.copied, s.slotPrefix_succ]
  exact congrArg (fun ph => { s with rdPhase := ph, rdK := k + 1, rx := s.slotPrefix k ++ [s.slotByte k] }) (if_neg h)

theorem readCopyByte_copied_last {s : State} {k : Nat} (h : k + 1 = s.cfg.regionSize) :
    readCopyByte (s.copied k) = s.copiedAll := by
  have hall : s.slotBytes = s.slotPrefix k ++ [s.slotByte k] := by rw [← s.slotPrefix_succ, h]; rfl
  rw [State.copiedAll, hall, ← h]
  exact congrArg (fun ph => { s with rdPhase := ph, rdK := k + 1, rx := s.slotPrefix k ++ [s.slotByte k] }) (if_pos h)

/-- The copy byte by byte, from byte `k` to the last. -/
theorem runLines_copyBytes {s : State} (hg : s.cfg.copyGranularity = .byte) {n k : Nat}
    (h : k + n + 1 = s.cfg.regionSize) :
    runLines (List.replicate (n + 1) .readStep) (s.copied k) = .next s.copiedAll.closePorts := by
  have hstep := readStep_copyByte (s := s.copied k) rfl hg (show k < s.cfg.regionSize by omega)
  induction n generalizing s k with
  | zero => exact runLines_one (readCopyByte_copied_last h ▸ runLine_readStep hstep)
  | succ n ih =>
    rw [List.replicate_succ, runLines_step_next hstep, readCopyByte_copied_inner (by omega)]
    exact ih (s := s.closePorts) (k := k + 1) hg (by show _ = s.cfg.regionSize; omega)
      (readStep_copyByte rfl hg (show k + 1 < s.cfg.regionSize by omega))

/-- The number of steps of READ's copy (R186). -/
def copySteps (p : Params) : Nat :=
  match p.copyGranularity with
  | .byte => p.regionSize
  | .frame => 1

theorem readLines_zero (p : Params) :
    readLines p 0 = .command (encodeCode .read) (.expected (.lit p.regionSize)) :: .readStep :: .readStep ::
      (List.replicate (copySteps p) .readStep ++ [.readStep, .readStep]) := by
  have hcount : 0 + 2 + copySteps p + 2 = copySteps p + 2 + 1 + 1 := by omega
  show _ :: List.replicate (0 + 2 + copySteps p + 2) _ = _
  rw [hcount, List.replicate_succ, List.replicate_succ, List.replicate_add]
  rfl

/-- READ's copy, for either granularity. -/
theorem runLines_copy (s : State) :
    runLines (List.replicate (copySteps s.cfg.toParams) .readStep) (s.copied 0) = .next s.copiedAll.closePorts := by
  cases hg : s.cfg.copyGranularity with
  | byte =>
    have hcount : copySteps s.cfg.toParams = s.cfg.packedSize + 1 := by rw [copySteps, hg]; rfl
    rw [hcount]
    exact runLines_copyBytes hg (by rw [Nat.zero_add]; rfl)
  | frame =>
    have hcount : copySteps s.cfg.toParams = 1 := by rw [copySteps, hg]
    rw [hcount]
    exact runLines_one (runLine_readStep (readStep_copyFrame rfl hg))

/-- What an uninterrupted READ of the region leaves. -/
def State.afterRead (s : State) : State :=
  { s with
    ports := emptyPorts s.cfg.toParams
    res := {}
    rdy := readinessOf s.tc
    im := false
    rdPhase := .idle
    rdK := 0
    rx := []
    hostVars := { bytesRead := some s.cfg.regionSize, rx := some s.slotBytes } :: s.hostVars }

/-- R187, R188: the end of READ's critical section. -/
theorem runLines_resample_unmask {s : State} (hp : s.rdPhase = .resample) :
    runLines [.readStep, .readStep] s = .next (readUnmask (readResample s).closePorts).closePorts := by
  rw [runLines_step_next (readStep_resample hp)]
  exact runLines_one (runLine_readStep (readStep_unmask rfl))

theorem readUnmask_copiedAll (s : State) :
    (readUnmask (readResample s.copiedAll.closePorts).closePorts).closePorts = s.afterRead := by
  simp [readUnmask, readResample, State.copiedAll, State.afterRead, State.closePorts, State.answer, State.endRead,
    State.setIm, State.setRdy]

/-- What READ's wait and mask steps wrote, the rest of READ writes again. -/
theorem afterRead_masked (s : State) : ({ s with im := true } : State).closePorts.afterRead = s.afterRead := by
  have hslot : ({ s with im := true } : State).closePorts.slotBytes = s.slotBytes := slotBytes_congr rfl rfl rfl
  rw [State.afterRead, hslot, State.afterRead]
  rfl

/-- R186 to R188: the copy from its start, and all steps after it. -/
theorem runLines_copy_to_end (s : State) :
    runLines (List.replicate (copySteps s.cfg.toParams) .readStep ++ [.readStep, .readStep]) (s.copied 0) =
      .next s.afterRead := by
  rw [runLines_append_next (runLines_copy s), runLines_resample_unmask rfl, readUnmask_copiedAll]

/-- R184 to R188: the wait step that finds RDY full, and every step after it. -/
theorem runLines_readSteps {s : State} (hp : s.rdPhase = .wait) (hr : s.rdy = .full) :
    runLines (.readStep :: .readStep ::
      (List.replicate (copySteps s.cfg.toParams) .readStep ++ [.readStep, .readStep])) s = .next s.afterRead := by
  have hmask := readStep_mask (s := ({ s with rdPhase := .mask } : State).closePorts) rfl
  rw [runLines_step_next (readStep_wait_full hp hr), runLines_step_next hmask, ← afterRead_masked s]
  exact runLines_copy_to_end ({ s with im := true } : State).closePorts

/-- R189: READ and all its steps. -/
theorem runLines_readLines {s : State} (hb : s.hostBusy = false) (hr : s.rdy = .full) :
    runLines (readLines s.cfg.toParams 0) s = .next s.afterRead := by
  rw [readLines_zero, runLines_cons_next (runLine_read hb)]
  exact runLines_readSteps (s := { s with ports := emptyPorts s.cfg.toParams, res := {}, rdPhase := .wait }) rfl hr

/-- Settles O33: `runLines_readLines`, from a state whose RD_PHASE is idle. -/
theorem uninterruptedReadReturnsTheRegion : Obligations.UninterruptedReadReturnsTheRegion := by
  unfold Obligations.UninterruptedReadReturnsTheRegion
  intro s hb hr
  rw [runLines_readLines hb hr, State.afterRead, ← (s.hostBusy_eq_false.1 hb).1]
  rfl

/-! ### What READ copies -/

/-- An offset ENGINE has written reads as the byte SLOT lists (R28). -/
theorem lookup_of_written {s : State} {x : Nat} (h : s.written x = true) :
    Mem.lookup s.slot x = some (s.slotByte x) := by
  obtain ⟨b, hb⟩ := Option.isSome_iff_exists.1 h
  rw [State.slotByte, hb, Option.getD_some]

/-- Settles O50: during the copy RDY is full, so by the invariant the whole region is written. -/
theorem readCopiesOnlyStoredBytes : Obligations.ReadCopiesOnlyStoredBytes := by
  unfold Obligations.ReadCopiesOnlyStoredBytes
  intro s h hp
  have hk := (h.copying hp).1
  have hlisted (x : Nat) (hx : x < s.cfg.regionSize) : Mem.lookup s.slot x = some (s.slotByte x) :=
    lookup_of_written (h.regionStored (.inr (h.fullWhileReading (by simp [hp]))) x hx)
  cases hg : s.cfg.copyGranularity with
  | byte =>
    exact ⟨_, readStep_copyByte hp hg hk, fun _ => ⟨_, hlisted _ hk, rfl⟩, (nomatch ·)⟩
  | frame =>
    refine ⟨_, readStep_copyFrame hp hg, (nomatch ·), fun _ => ⟨slotBytes_length s, fun x hx => ?_⟩⟩
    exact ⟨_, hlisted x hx, by simp [readCopyFrame, State.slotBytes, hx]⟩

/-! ### AVAILABLE, the engine and HANDLER -/

/-- Settles O34: `byteCountOf` by the value of RDY. -/
theorem availableReportsReadiness : Obligations.AvailableReportsReadiness := by
  unfold Obligations.AvailableReportsReadiness
  intro s
  exact ⟨byteCountOf s.cfg.regionSize s.rdy, rfl, fun hr => by rw [hr]; rfl, fun hr => by rw [hr]; rfl⟩

/-- R195: ENG_BYTE stores whenever its index is an offset of SLOT. -/
theorem exec_engByte_stores {s : State} (h : s.widx < s.cfg.regionSize) :
    exec .engByte s = .next (s.engineStore s.ports.lineByte) := by
  simp [exec, execEngByte, State.inRegion, h]

/-- Settles O35: the laws of `engineStore`; outside SLOT the test of the index fails. -/
theorem engineStoresTheByteAtItsIndex : Obligations.EngineStoresTheByteAtItsIndex := by
  unfold Obligations.EngineStoresTheByteAtItsIndex
  refine fun s => ⟨fun hin => ?_, fun hout => by simp [exec, execEngByte, State.inRegion, hout.not_gt]⟩
  refine ⟨_, exec_engByte_stores hin, ?_, fun x hx => ?_, engineStore_wraps _, fun hinner => ?_, engineStore_frame _ _⟩
  · rw [engineStore_slotByte, if_pos rfl]
  · rw [engineStore_slotByte, if_neg hx]
  · exact engineStore_advances _ hinner.ne

/-- Settles O36: ENG_ERROR has one outcome. -/
theorem engineErrorSetsTheIndicatorOnly : Obligations.EngineErrorSetsTheIndicatorOnly := by
  unfold Obligations.EngineErrorSetsTheIndicatorOnly
  exact fun _ => rfl

/-- R198: HANDLER that is not enabled has no step. -/
theorem exec_handler_not_enabled {s : State} (h : ¬(s.im = false ∧ (s.tc = true ∨ s.te = true))) :
    exec .handler s = .refused .handlerNotEnabled :=
  if_neg (mt s.handlerEnabled_iff.1 h)

/-- Settles O37: enabled, HANDLER takes the completion signal; otherwise it is refused. -/
theorem handlerStepsExactlyWhenRequested : Obligations.HandlerStepsExactlyWhenRequested := by
  unfold Obligations.HandlerStepsExactlyWhenRequested
  refine fun s => ⟨⟨fun ⟨t, ht⟩ => ?_, fun h => ?_⟩, exec_handler_not_enabled⟩
  · by_contra h
    exact nomatch (exec_handler_not_enabled h).symm.trans ht
  · exact ⟨_, if_pos (s.handlerEnabled_iff.2 h)⟩

/-- Settles O51: the mask is set in the critical section, and the engine's index is in the region. -/
theorem maskStopsTheHandlerNotTheEngine : Obligations.MaskStopsTheHandlerNotTheEngine := by
  unfold Obligations.MaskStopsTheHandlerNotTheEngine
  intro s p h hcritical
  have him : s.im = true := h.maskedExactly.2 hcritical
  refine ⟨exec_handler_not_enabled fun henabled => ?_, ?_, ⟨_, rfl, rfl⟩⟩
  · exact nomatch him.symm.trans henabled.1
  · refine ⟨_, exec_engByte_stores (s := { s with ports := p }) h.indexInRegion, ?_, fun htc => ?_⟩
    · exact congrArg Transport.rdy (engineStore_transport _ _)
    · have hkept := congrArg Transport.tc (engineStore_transport { s with ports := p } p.lineByte)
      exact hkept.trans (by simp [htc])

end Sys2Proof.Machine
end

section
/-! The rest of 70_reset_and_hazards.md and 10_state.md: RESET and the start state (R38, R39, R240), the access table
of the transport state (R51), and the life of a completion (R71, R201). -/

namespace Sys2Proof.Machine

/-- Settles O40: RESET has one outcome. -/
theorem resetLeavesTheStartState : Obligations.ResetLeavesTheStartState := by
  unfold Obligations.ResetLeavesTheStartState
  exact fun s => ⟨_, rfl, rfl, rfl, rfl, rfl, rfl, fun _ => rfl, rfl, rfl, rfl, rfl, rfl, rfl, rfl⟩

/-- Settles O41: the fields of `State.afterReset`. -/
theorem stateAfterReset : Obligations.StateAfterReset := by
  unfold Obligations.StateAfterReset
  exact ⟨fun c => ⟨rfl, rfl, rfl, rfl, rfl, rfl, rfl, rfl, rfl, rfl⟩, rfl⟩

/-! ### Who writes the transport state -/

theorem TransportDoes.cfg_eq {line : ScriptLine} {s t : State} (d : TransportDoes line s t) : t.cfg = s.cfg := by
  cases d with
  | quiet eq | masks _ _ eq | resamples _ _ eq | unmasks _ _ eq | stores _ _ _ eq | errs _ eq | drops _ _ _ eq
  | completes _ _ _ _ eq | resets _ eq => exact congrArg Transport.cfg eq

/-- Only the engine and a RESET write SLOT (R51). -/
theorem TransportDoes.slot_eq {line : ScriptLine} {s t : State} (d : TransportDoes line s t)
    (hbyte : isEventOf .engByte line = false) (hreset : isEventOf .reset line = false) :
    t.slot = s.slot ∧ t.slotEpoch = s.slotEpoch := by
  cases d with
  | stores ev => exact absurd (ev.symm.trans hbyte) (by decide)
  | resets ev => exact absurd (ev.symm.trans hreset) (by decide)
  | quiet eq | masks _ _ eq | resamples _ _ eq | unmasks _ _ eq | errs _ eq | drops _ _ _ eq
  | completes _ _ _ _ eq => exact ⟨congrArg Transport.slot eq, congrArg Transport.slotEpoch eq⟩

/-- The engine changes what its own index reads as, and no other offset (R51). -/
theorem slotByte_of_written_at {s t : State} {i : Nat} {b : Byte} (hslot : t.slot = Mem.write s.slot i b)
    (hepoch : t.slotEpoch = s.slotEpoch) {x : Nat} (hx : x ≠ i) : t.slotByte x = s.slotByte x := by
  rw [State.slotByte, hslot, hepoch, Mem.lookup_write_other _ _ hx, State.slotByte]

/-- Settles O44: of the kinds of step that write SLOT one is the engine's, at its index, and one a RESET. -/
theorem slotIsWrittenByTheEngineOnly : Obligations.SlotIsWrittenByTheEngineOnly := by
  unfold Obligations.SlotIsWrittenByTheEngineOnly
  intro s t x h hchanged
  cases step_transport h with
  | stores ev _ b eq =>
    obtain ⟨_, hslot, hepoch, _⟩ := transport_eq eq
    exact .inl ⟨ev, not_imp_comm.1 (slotByte_of_written_at hslot hepoch) hchanged⟩
  | resets ev => exact .inr ev
  | quiet eq | masks _ _ eq | resamples _ _ eq | unmasks _ _ eq | errs _ eq | drops _ _ _ eq
  | completes _ _ _ _ eq =>
    exact absurd (slotByte_congr (congrArg Transport.slot eq) (congrArg Transport.slotEpoch eq) x) hchanged

/-- TC is set by the engine only, at the region's last offset (R30, R195). -/
theorem TransportDoes.tc_set {line : ScriptLine} {s t : State} (d : TransportDoes line s t) (hs : s.tc = false)
    (ht : t.tc = true) : isEventOf .engByte line = true ∧ s.widx + 1 = s.cfg.regionSize := by
  cases d with
  | stores ev _ _ eq =>
    have htc := (congrArg Transport.tc eq).symm.trans ht
    exact ⟨ev, by simpa [hs] using htc⟩
  | completes _ _ _ _ eq | resets _ eq => exact nomatch (congrArg Transport.tc eq).symm.trans ht
  | quiet eq | masks _ _ eq | resamples _ _ eq | unmasks _ _ eq | errs _ eq | drops _ _ _ eq =>
    exact nomatch hs.symm.trans ((congrArg Transport.tc eq).symm.trans ht)

/-- TC is cleared by HANDLER only, on its completion path (R30, R199), or a RESET. -/
theorem TransportDoes.tc_cleared {line : ScriptLine} {s t : State} (d : TransportDoes line s t)
    (hreset : isEventOf .reset line = false) (hs : s.tc = true) (ht : t.tc = false) :
    isEventOf .handler line = true ∧ s.im = false ∧ s.te = false := by
  cases d with
  | completes ev im te => exact ⟨ev, im, te⟩
  | resets ev => exact nomatch ev.symm.trans hreset
  | stores _ _ _ eq =>
    have htc := (congrArg Transport.tc eq).symm.trans ht
    simp [hs] at htc
  | quiet eq | masks _ _ eq | resamples _ _ eq | unmasks _ _ eq | errs _ eq | drops _ _ _ eq =>
    exact nomatch hs.symm.trans ((congrArg Transport.tc eq).symm.trans ht)

/-- TE is set by ENG_ERROR only (R31, R197). -/
theorem TransportDoes.te_set {line : ScriptLine} {s t : State} (d : TransportDoes line s t) (hs : s.te = false)
    (ht : t.te = true) : isEventOf .engError line = true := by
  cases d with
  | errs ev => exact ev
  | drops _ _ _ eq | resets _ eq => exact nomatch (congrArg Transport.te eq).symm.trans ht
  | quiet eq | masks _ _ eq | resamples _ _ eq | unmasks _ _ eq | stores _ _ _ eq | completes _ _ _ _ eq =>
    exact nomatch hs.symm.trans ((congrArg Transport.te eq).symm.trans ht)

/-- TE is cleared by HANDLER only (R31, R198), or a RESET. -/
theorem TransportDoes.te_cleared {line : ScriptLine} {s t : State} (d : TransportDoes line s t)
    (hreset : isEventOf .reset line = false) (hs : s.te = true) (ht : t.te = false) :
    isEventOf .handler line = true ∧ s.im = false := by
  cases d with
  | drops ev im => exact ⟨ev, im⟩
  | resets ev => exact nomatch ev.symm.trans hreset
  | errs _ eq => exact nomatch (congrArg Transport.te eq).symm.trans ht
  | quiet eq | masks _ _ eq | resamples _ _ eq | unmasks _ _ eq | stores _ _ _ eq | completes _ _ _ _ eq =>
    exact nomatch hs.symm.trans ((congrArg Transport.te eq).symm.trans ht)

/-- IM is set by READ's mask step only (R32, R185). -/
theorem TransportDoes.im_set {line : ScriptLine} {s t : State} (d : TransportDoes line s t) (hs : s.im = false)
    (ht : t.im = true) : line = .readStep ∧ s.rdPhase = .mask := by
  cases d with
  | masks isStep ph => exact ⟨isStep, ph⟩
  | unmasks _ _ eq | resets _ eq => exact nomatch (congrArg Transport.im eq).symm.trans ht
  | quiet eq | resamples _ _ eq | stores _ _ _ eq | errs _ eq | drops _ _ _ eq | completes _ _ _ _ eq =>
    exact nomatch hs.symm.trans ((congrArg Transport.im eq).symm.trans ht)

/-- IM is cleared by READ's unmask step only (R32, R188), or a RESET. -/
theorem TransportDoes.im_cleared {line : ScriptLine} {s t : State} (d : TransportDoes line s t)
    (hreset : isEventOf .reset line = false) (hs : s.im = true) (ht : t.im = false) :
    line = .readStep ∧ s.rdPhase = .unmask := by
  cases d with
  | unmasks isStep ph => exact ⟨isStep, ph⟩
  | resets ev => exact nomatch ev.symm.trans hreset
  | masks _ _ eq => exact nomatch (congrArg Transport.im eq).symm.trans ht
  | quiet eq | resamples _ _ eq | stores _ _ _ eq | errs _ eq | drops _ _ _ eq | completes _ _ _ _ eq =>
    exact nomatch hs.symm.trans ((congrArg Transport.im eq).symm.trans ht)

/-- WIDX is written by the engine only (R33), or a RESET. -/
theorem TransportDoes.widx_changed {line : ScriptLine} {s t : State} (d : TransportDoes line s t)
    (hreset : isEventOf .reset line = false) (hne : t.widx ≠ s.widx) : isEventOf .engByte line = true := by
  cases d with
  | stores ev => exact ev
  | resets ev => exact nomatch ev.symm.trans hreset
  | quiet eq | masks _ _ eq | resamples _ _ eq | unmasks _ _ eq | errs _ eq | drops _ _ _ eq
  | completes _ _ _ _ eq => exact absurd (congrArg Transport.widx eq) hne

/-- Settles O43: one lemma for each indicator and direction. -/
theorem indicatorsHaveOneWriterEach : Obligations.IndicatorsHaveOneWriterEach := by
  unfold Obligations.IndicatorsHaveOneWriterEach
  intro s t h
  have d := step_transport h
  exact ⟨d.cfg_eq, fun hreset => ⟨d.tc_set, d.tc_cleared hreset, d.te_set, d.te_cleared hreset, d.im_set,
    d.im_cleared hreset, d.widx_changed hreset⟩⟩

/-! ### The life of a completion -/

/-- Settles O46: HANDLER moves a completion from TC to RDY, and only READ's resample and RESET take it from both. -/
theorem completionIsNeverForgotten : Obligations.CompletionIsNeverForgotten := by
  unfold Obligations.CompletionIsNeverForgotten
  intro s t h hsignalled
  cases step_transport h with
  | resets ev => exact .inr (.inr ev)
  | resamples isStep ph eq =>
    by_cases htc : s.tc = true
    · exact .inl (.inl ((congrArg Transport.tc eq).trans htc))
    · exact .inr (.inl ⟨isStep, ph, Bool.eq_false_of_not_eq_true htc⟩)
  | completes _ _ _ _ eq => exact .inl (.inr (congrArg Transport.rdy eq))
  | stores _ _ _ eq =>
    obtain ⟨_, _, _, hrdy, htc, _⟩ := transport_eq eq
    exact .inl (hsignalled.imp (fun hs => htc.trans (by simp [hs])) hrdy.trans)
  | quiet eq | masks _ _ eq | unmasks _ _ eq | errs _ eq | drops _ _ _ eq =>
    obtain ⟨_, _, _, hrdy, htc, _⟩ := transport_eq eq
    exact .inl (hsignalled.imp htc.trans hrdy.trans)

/-- What every line of a script keeps, the script keeps. -/
theorem runLines_keeps {P : State → Prop} {lines : List ScriptLine}
    (hline : ∀ l ∈ lines, ∀ s t, runLine l s = .next t → P s → P t) {s t : State} (h : runLines lines s = .next t)
    (hs : P s) : P t := by
  induction lines generalizing s with
  | nil => cases h; exact hs
  | cons l lines ih =>
    obtain ⟨u, hl, hrest⟩ := runLines_cons_cases h
    rw [List.forall_mem_cons] at hline
    exact ih hline.2 hrest (hline.1 s u hl hs)

/-- RDY once full stays full but for READ's steps and RESET: HANDLER raises it, or leaves it (R180, R201). -/
theorem TransportDoes.rdy_full {line : ScriptLine} {s t : State} (d : TransportDoes line s t)
    (hstep : line ≠ .readStep) (hreset : isEventOf .reset line = false) (hs : s.rdy = .full) : t.rdy = .full := by
  cases d with
  | resamples isStep => exact absurd isStep hstep
  | resets ev => exact nomatch ev.symm.trans hreset
  | completes _ _ _ _ eq => exact congrArg Transport.rdy eq
  | quiet eq | masks _ _ eq | unmasks _ _ eq | stores _ _ _ eq | errs _ eq | drops _ _ _ eq =>
    exact (congrArg Transport.rdy eq).trans hs

/-- Settles O45: the wait by `runLines_wait_idle`; a full RDY, and the configuration, by every line. -/
theorem fullLastsUntilTheNextRead : Obligations.FullLastsUntilTheNextRead := by
  unfold Obligations.FullLastsUntilTheNextRead
  refine ⟨fun s k hp hr => runLines_wait_idle hp hr k, fun s t lines hr hlines h => ?_⟩
  obtain ⟨hrdy, hcfg⟩ : t.rdy = .full ∧ t.cfg = s.cfg := by
    refine runLines_keeps (P := fun u => u.rdy = .full ∧ u.cfg = s.cfg) (fun l hl u v hrun hu => ?_) h ⟨hr, rfl⟩
    have d := runLine_transport hrun
    exact ⟨d.rdy_full (hlines l hl).1 (hlines l hl).2 hu.1, d.cfg_eq.trans hu.2⟩
  refine ⟨hrdy, _, rfl, ?_⟩
  rw [← hcfg, State.answer_res, hrdy]
  rfl

end Sys2Proof.Machine
end


section
/-! The frame on its way from engine to host (20_memory.md section 7, 70_reset_and_hazards.md section 3, 00_scope.md
section 1): the late READ (R254), the timely READ (R66), and a frame from node to node (R4, R97). -/

namespace Sys2Proof.Machine

/-- SLOT after `FEED` from offset 0: the bytes fed, then what stood there. -/
theorem slotBytes_fed {s t : State} {bytes : List Byte} (hcfg : t.cfg = s.cfg) (h0 : s.widx = 0)
    (hlen : bytes.length ≤ s.cfg.regionSize)
    (hslot : ∀ x, t.slotByte x =
      if s.widx ≤ x ∧ x < s.widx + bytes.length then bytes.getD (x - s.widx) 0 else s.slotByte x) :
    t.slotBytes = bytes ++ s.slotBytes.drop bytes.length := by
  apply List.ext_getElem
  · simp [hcfg, hlen]
  intro x hx _
  have hread : t.slotBytes[x] = t.slotByte x := by simp [State.slotBytes]
  rw [hread, hslot, h0]
  by_cases hfed : x < bytes.length
  · simp [hfed]
  · rw [List.getElem_append_right (not_lt.1 hfed)]
    simp [State.slotBytes, hfed, Nat.add_sub_cancel' (not_lt.1 hfed)]

/-- Settles O53: READ finds RDY still full, and SLOT holding the new bytes and then the old ones. -/
theorem lateReadMixesTwoPeriods : Obligations.LateReadMixesTwoPeriods := by
  unfold Obligations.LateReadMixesTwoPeriods
  intro s new hb hr h0 hlen
  obtain ⟨t, hfeed, hframe, hslot, _, _⟩ := runLines_feed new s (by omega)
  have hcfg : t.cfg = s.cfg := by rw [hframe]
  have hread : runLines (readLines t.cfg.toParams 0) t = .next t.afterRead :=
    runLines_readLines (by rw [hframe]; exact hb) (by rw [hframe]; exact hr)
  refine ⟨t.afterRead, (runLines_append_next hfeed).trans (hcfg ▸ hread), ?_⟩
  have hkept : t.hostVars = s.hostVars := by rw [hframe]
  rw [State.afterRead, slotBytes_fed hcfg h0 hlen.le hslot, hcfg, hkept]

/-- DESERIALIZE of what READ has just returned, bytes and count both kept (R97). -/
theorem runLine_deserialize_read {s : State} {n : Nat} {bytes : List Byte} {vars : List Results}
    (hb : s.hostBusy = false) (hk : s.hostVars = { bytesRead := some n, rx := some bytes } :: vars)
    (hl : n ≤ bytes.length) :
    runLine (.command (encodeCode .deserialize) (.buffer (.kept 0) (.kept 0))) s =
      .next (s.answer (deserializeResults (deserialize s.cfg.toParams bytes n))).closePorts :=
  runLine_pure (i := .deserialize) (p := { emptyPorts s.cfg.toParams with bytes := bytes, length := n }) rfl hb
    (by simp [loadOperands, Args.hasShape, Instr.shape, loadArgs, resolve, Results.byteSeq, Results.number, accept,
      fitsBuffer, hk, hl])

/-- `RECEIVE` with RDY full: READ, and DESERIALIZE of the region as it stands (R97). -/
theorem runLines_receive {s : State} (hb : s.hostBusy = false) (hr : s.rdy = .full) :
    runLines (receive s.cfg.toParams 0) s = .next (s.afterRead.answer
      (deserializeResults (deserialize s.cfg.toParams s.slotBytes s.cfg.regionSize))).closePorts := by
  have hfree : s.afterRead.hostBusy = false := (State.hostBusy_eq_false _).2 ⟨rfl, (s.hostBusy_eq_false.1 hb).2⟩
  rw [receive, runLines_append_next (runLines_readLines hb hr)]
  exact runLines_one (runLine_deserialize_read hfree rfl (slotBytes_length s).ge)

/-- A whole frame fed from offset 0 stands in SLOT, and its completion is signalled (R195). -/
theorem runLines_feed_frame {s : State} {frame : List Byte} (h0 : s.widx = 0)
    (hlen : frame.length = s.cfg.regionSize) :
    ∃ t : State, runLines (feed frame) s = .next t ∧
      t = { s with slot := t.slot, widx := t.widx, tc := t.tc, ports := t.ports, res := t.res } ∧
      t.slotBytes = frame ∧ t.tc = true := by
  obtain ⟨t, hfeed, hframe, hslot, _, hdone⟩ := runLines_feed frame s (by omega)
  have hcfg : t.cfg = s.cfg := by rw [hframe]
  have hnonempty : frame ≠ [] := fun hnil => s.cfg.regionSize_pos.ne (by rw [← hlen, hnil]; rfl)
  refine ⟨t, hfeed, hframe, ?_, (hdone hnonempty (by omega)).2⟩
  rw [slotBytes_fed hcfg h0 hlen.le hslot, List.drop_of_length_le (by simp [hlen]), List.append_nil]

/-- A completion signalled and announced by HANDLER can be received (R97, R199). -/
theorem runLines_handler_receive {s : State} (hb : s.hostBusy = false) (him : s.im = false) (hte : s.te = false)
    (htc : s.tc = true) :
    ∃ t : State, runLines (handlerRuns :: receive s.cfg.toParams 0) s = .next t ∧
      t.hostVars[0]? = some (deserializeResults (deserialize s.cfg.toParams s.slotBytes s.cfg.regionSize)) := by
  have hreceive := runLines_receive (s := { s with
    tc := false, rdy := .full, ports := emptyPorts s.cfg.toParams, res := {} }) hb rfl
  exact ⟨_, (runLines_cons_next (runLine_handler_completes him hte htc)).trans hreceive, rfl⟩

/-- Settles O54: A appends a frame, which B can receive, and `deserialize_frameOf` says what it gives back. -/
theorem frameTravelsFromNodeToNode : Obligations.FrameTravelsFromNodeToNode := by
  unfold Obligations.FrameTravelsFromNodeToNode
  intro a b vs hcfg hv ha hb h0 hte him
  have hlen : (frameOf a.cfg.toParams vs).length = b.cfg.regionSize := by rw [frameOf_length, hcfg]; rfl
  obtain ⟨t, hfeed, hframe, hslot, htc⟩ := runLines_feed_frame h0 hlen
  have htcfg : t.cfg = b.cfg := by rw [hframe]
  obtain ⟨tb, hrun, hkept⟩ := runLines_handler_receive (s := t) (by rw [hframe]; exact hb)
    (by rw [hframe]; exact him) (by rw [hframe]; exact hte) htc
  rw [htcfg] at hrun hkept
  refine ⟨_, tb, frameOf a.cfg.toParams vs, runLines_send_complete ha hv, rfl, rfl,
    (runLines_append_next hfeed).trans hrun, ?_⟩
  have hback := deserialize_frameOf a.cfg (fitsValues_length hv)
  rw [hkept, hslot, hcfg]
  exact congrArg (some <| deserializeResults ·) hback

/-! ### The timely READ -/

/-- A line that leaves SLOT leaves all it reads as (R51). -/
theorem runLine_leavesSlot {line : ScriptLine} {s t : State} (hl : leavesSlot line = true)
    (h : runLine line s = .next t) : t.cfg = s.cfg ∧ t.slot = s.slot ∧ t.slotEpoch = s.slotEpoch := by
  simp only [leavesSlot, Bool.and_eq_true, Bool.not_eq_true'] at hl
  have d := runLine_transport h
  exact ⟨d.cfg_eq, d.slot_eq hl.1 hl.2⟩

/-- The bytes a READ has copied are those of SLOT as it reads now: so far while it copies, and the region's at the
resample. -/
def State.CopyAgrees (s : State) : Prop :=
  (s.rdPhase = .copy → s.rx = s.slotPrefix s.rdK) ∧ (s.rdPhase = .resample → s.rx = s.slotBytes)

theorem readCopyByte_keeps_copyAgrees {s : State} (hp : s.rdPhase = .copy) (hs : s.CopyAgrees) :
    (readCopyByte s).CopyAgrees := by
  have hcopied : s.rx ++ [s.slotByte s.rdK] = s.slotPrefix (s.rdK + 1) := by rw [s.slotPrefix_succ, hs.1 hp]
  refine ⟨fun _ => hcopied, fun hdone => ?_⟩
  have hlast : s.rdK + 1 = s.cfg.regionSize :=
    by_contra fun hinner => by simp [readCopyByte_rdPhase, hinner] at hdone
  exact hcopied.trans (congrArg s.slotPrefix hlast)

theorem readStep_keeps_copyAgrees {s t : State} (h : readStep s = .next t) (hs : s.CopyAgrees) : t.CopyAgrees := by
  rcases readStep_next h with ⟨_, _, rfl⟩ | ⟨_, _, rfl⟩ | ⟨_, rfl⟩ | ⟨hp, _, _, rfl⟩ | ⟨_, _, rfl⟩ | ⟨_, rfl⟩ |
    ⟨_, rfl⟩
  · exact hs
  · exact ⟨(nomatch ·), (nomatch ·)⟩
  · exact ⟨fun _ => rfl, (nomatch ·)⟩
  · exact readCopyByte_keeps_copyAgrees hp hs
  · exact ⟨(nomatch ·), fun _ => rfl⟩
  · exact ⟨(nomatch ·), (nomatch ·)⟩
  · exact ⟨(nomatch ·), (nomatch ·)⟩

/-- A line that is no step of a READ and no RESET leaves the READ in progress, or starts one. -/
theorem LineDoes.read_left_or_starts {line : ScriptLine} {s t : State} (d : LineDoes line s t)
    (hstep : line ≠ .readStep) (hreset : isEventOf .reset line = false) :
    (t.rdPhase = s.rdPhase ∧ t.rdK = s.rdK ∧ t.rx = s.rx) ∨ t.rdPhase = .wait := by
  cases d with
  | reads isStep => exact absurd isStep hstep
  | resets p ev => exact nomatch ev.symm.trans hreset
  | waits p _ _ _ eq => exact .inr (eq ▸ rfl)
  | stores p _ _ eq => rw [eq, engineStore_frame]; exact .inl ⟨rfl, rfl, rfl⟩
  | payload p _ _ _ eq => rw [eq, State.afterPayload]; split <;> exact .inl ⟨rfl, rfl, rfl⟩
  | answers p _ _ _ _ _ eq | starts p _ _ _ eq | errs p _ eq | drops p _ _ _ eq | completes p _ _ _ _ eq
  | digest p _ _ _ eq => subst eq; exact .inl ⟨rfl, rfl, rfl⟩

/-- A line that is a step of a READ is that step. -/
theorem runLine_readStep_next {s t : State} (h : runLine .readStep s = .next t) :
    ∃ u, readStep s = .next u ∧ t = u.closePorts := endStep_next h

theorem copyAgrees_congr {s t : State} (hcfg : t.cfg = s.cfg) (hslot : t.slot = s.slot)
    (hepoch : t.slotEpoch = s.slotEpoch) (hp : t.rdPhase = s.rdPhase) (hk : t.rdK = s.rdK) (hrx : t.rx = s.rx)
    (hs : s.CopyAgrees) : t.CopyAgrees := by
  have hbytes : t.slotByte = s.slotByte := funext (slotByte_congr hslot hepoch)
  rw [State.CopyAgrees, State.slotPrefix, State.slotBytes, hbytes, hcfg, hp, hk, hrx]
  exact hs

/-- While SLOT is left alone, what a READ has copied stays what SLOT reads as. -/
theorem runLine_keeps_copyAgrees {line : ScriptLine} {s t : State} (hl : leavesSlot line = true)
    (h : runLine line s = .next t) (hs : s.CopyAgrees) : t.CopyAgrees := by
  by_cases hstep : line = .readStep
  · subst hstep
    obtain ⟨u, hu, rfl⟩ := runLine_readStep_next h
    have hu' := readStep_keeps_copyAgrees hu hs
    exact hu'
  · obtain ⟨hcfg, hslot, hepoch⟩ := runLine_leavesSlot hl h
    have hreset : isEventOf .reset line = false := by simpa using (Bool.and_eq_true_iff.1 hl).2
    obtain ⟨u, d, rfl⟩ := runLine_next h
    rcases d.read_left_or_starts hstep hreset with ⟨hp, hk, hrx⟩ | hwait
    · exact copyAgrees_congr hcfg hslot hepoch hp hk hrx hs
    · exact ⟨fun hcopy => (nomatch hwait.symm.trans hcopy), fun hdone => (nomatch hwait.symm.trans hdone)⟩

/-- A command line that answers found HOST free (R20). -/
theorem hostBusy_of_runLine_command {code : Byte} {args : Args} {s t : State}
    (h : runLine (.command code args) s = .next t) : s.hostBusy = false := by
  obtain ⟨u, hu, _⟩ := endStep_next h
  rcases runCommand_cases hu with ⟨r, hr⟩ | ⟨_, _, _, _, hb, _⟩
  · exact nomatch hr
  · exact hb

/-- A READ issued and taken to its resample while SLOT is left alone has copied SLOT. -/
theorem rx_eq_slotBytes_at_resample {s u : State} {lines : List ScriptLine} (hlines : timely lines = true)
    (h : runLines (.command (encodeCode .read) (.expected (.lit s.cfg.regionSize)) :: lines) s = .next u)
    (hp : u.rdPhase = .resample) : u.rx = s.slotBytes ∧ u.cfg = s.cfg := by
  obtain ⟨v, hread, hrest⟩ := runLines_cons_cases h
  cases (runLine_read (hostBusy_of_runLine_command hread)).symm.trans hread
  have hkept := runLines_keeps
    (P := fun v => v.CopyAgrees ∧ v.cfg = s.cfg ∧ v.slot = s.slot ∧ v.slotEpoch = s.slotEpoch)
    (fun l hl v w hrun ⟨hagree, hcfg, hslot, hepoch⟩ => ?_) hrest ⟨⟨(nomatch ·), (nomatch ·)⟩, rfl, rfl, rfl⟩
  · obtain ⟨hagree, hcfg, hslot, hepoch⟩ := hkept
    exact ⟨(hagree.2 hp).trans (slotBytes_congr hcfg hslot hepoch), hcfg⟩
  · have hleaves := List.all_eq_true.1 hlines l hl
    obtain ⟨hcfg', hslot', hepoch'⟩ := runLine_leavesSlot hleaves hrun
    exact ⟨runLine_keeps_copyAgrees hleaves hrun hagree, hcfg'.trans hcfg, hslot'.trans hslot, hepoch'.trans hepoch⟩

/-- A line that may stand inside a READ and is none of its steps is an event of HANDLER or the engine. -/
theorem event_of_duringRead {line : ScriptLine} (hl : duringRead line = true) (hstep : line ≠ .readStep) :
    ∃ i, (i = .handler ∨ i = .engByte ∨ i = .engError) ∧ isEventOf i line = true := by
  simp only [duringRead, Bool.or_eq_true, decide_eq_true_eq, hstep, false_or] at hl
  rcases hl with (hev | hev) | hev
  · exact ⟨_, .inl rfl, hev⟩
  · exact ⟨_, .inr (.inl rfl), hev⟩
  · exact ⟨_, .inr (.inr rfl), hev⟩

/-- HANDLER and the engine leave the READ in progress and what the host kept. -/
theorem exec_handler_or_engine_frame {i : Instr} (hi : i = .handler ∨ i = .engByte ∨ i = .engError) {s t : State}
    (h : exec i s = .next t) : t.rdPhase = s.rdPhase ∧ t.rx = s.rx ∧ t.hostVars = s.hostVars ∧ t.cfg = s.cfg := by
  obtain rfl | rfl | rfl := hi
  · obtain ⟨_, ⟨_, rfl⟩ | ⟨_, _, rfl⟩⟩ := execHandler_next h <;> exact ⟨rfl, rfl, rfl, rfl⟩
  · obtain ⟨_, rfl⟩ := execEngByte_next h
    rw [engineStore_frame]
    exact ⟨rfl, rfl, rfl, rfl⟩
  · cases h
    exact ⟨rfl, rfl, rfl, rfl⟩

/-- From its resample on, a READ holds the frame it has copied until it returns it. -/
def State.Returns (c : Config) (frame : List Byte) (s : State) : Prop :=
  ((s.rdPhase = .resample ∨ s.rdPhase = .unmask) ∧ s.rx = frame ∧ s.cfg = c) ∨
    (s.rdPhase = .idle ∧ s.hostVars[0]? = some { bytesRead := some c.regionSize, rx := some frame })

theorem readStep_keeps_returns {c : Config} {frame : List Byte} {s t : State} (h : readStep s = .next t)
    (hs : s.Returns c frame) : t.Returns c frame := by
  rcases hs with ⟨hp | hp, hrx, rfl⟩ | ⟨hp, _⟩
  · cases (readStep_resample hp).symm.trans h
    exact .inl ⟨.inr rfl, hrx, rfl⟩
  · cases (readStep_unmask hp).symm.trans h
    exact .inr ⟨rfl, by rw [← hrx]; rfl⟩
  · exact nomatch (readStep_idle hp).symm.trans h

theorem runLine_keeps_returns {c : Config} {frame : List Byte} {line : ScriptLine} {s t : State}
    (hl : duringRead line = true) (h : runLine line s = .next t) (hs : s.Returns c frame) : t.Returns c frame := by
  by_cases hstep : line = .readStep
  · subst hstep
    obtain ⟨u, hu, rfl⟩ := runLine_readStep_next h
    have hu' := readStep_keeps_returns hu hs
    exact hu'
  · obtain ⟨i, hi, hev⟩ := event_of_duringRead hl hstep
    obtain ⟨u, hu, rfl⟩ := endStep_next h
    obtain ⟨p, hexec⟩ := takeTurn_of_isEventOf hev hu
    obtain ⟨hp, hrx, hkept, hcfg⟩ := exec_handler_or_engine_frame hi hexec
    rw [State.Returns, State.closePorts_rdPhase, State.closePorts_rx, State.closePorts_cfg,
      State.closePorts_hostVars, hp, hrx, hkept, hcfg]
    exact hs

/-- Settles O52: after the feed SLOT is the frame and stays so until the READ has copied it; from then on the READ holds
it. -/
theorem timelyReadIsNotTorn : Obligations.TimelyReadIsNotTorn := by
  unfold Obligations.TimelyReadIsNotTorn
  intro s t u frame mid copying after h0 hlen htimely hduring hrun hresample hafter hidle
  obtain ⟨v, hfeed, hframe, hslot, _⟩ := runLines_feed_frame h0 hlen
  rw [runLines_append_next hfeed] at hrun
  obtain ⟨w, hmid, hread⟩ := runLines_append_cases hrun
  rw [timely, List.all_append, Bool.and_eq_true] at htimely
  rw [List.all_append, Bool.and_eq_true] at hduring
  have hw : w.cfg = s.cfg ∧ w.slotBytes = frame := by
    refine runLines_keeps (P := fun w => w.cfg = s.cfg ∧ w.slotBytes = frame) (fun l hl x y hline hx => ?_) hmid
      ⟨by rw [hframe], hslot⟩
    obtain ⟨hcfg, hkept, hepoch⟩ := runLine_leavesSlot (List.all_eq_true.1 htimely.1 l hl) hline
    exact ⟨hcfg.trans hx.1, (slotBytes_congr hcfg hkept hepoch).trans hx.2⟩
  rw [← hw.1] at hread
  obtain ⟨hrx, hcfg⟩ := rx_eq_slotBytes_at_resample htimely.2 hread hresample
  have hreturns : t.Returns s.cfg frame :=
    runLines_keeps (fun l hl _ _ => runLine_keeps_returns (List.all_eq_true.1 hduring.2 l hl)) hafter
      (.inl ⟨.inl hresample, hrx.trans hw.2, hcfg.trans hw.1⟩)
  rcases hreturns with ⟨hbusy, _⟩ | ⟨_, hkept⟩
  · simp [hidle] at hbusy
  · exact hkept

end Sys2Proof.Machine
end


section
/-! Codes and steps (30_encoding.md section 5, 10_state.md sections 1 and 3, 20_memory.md section 7): the table of codes
(R92), what is refused (R94), which operation a step runs (R65, R96), and the ports between steps (R24). -/

namespace Sys2Proof.Machine

/-! ### Codes -/

/-- R92: a code that selects an operation is that operation's code. -/
theorem encodeCode_of_decodeCode {c : Byte} {i : Instr} (h : decodeCode c = some i) : encodeCode i = c := by
  have hall : ∀ c : Byte, ∀ i ∈ decodeCode c, encodeCode i = c := by decide +kernel
  exact hall c i h

/-- Settles O56: each code by evaluation; both directions of the round trip, and bit 7 of each code. -/
theorem codesOfTheTable : Obligations.CodesOfTheTable := by
  unfold Obligations.CodesOfTheTable
  refine ⟨rfl, rfl, rfl, rfl, rfl, rfl, rfl, rfl, rfl, rfl, rfl, rfl, rfl, rfl, rfl, rfl, rfl, rfl, fun i => ?_,
    fun c i => encodeCode_of_decodeCode, fun i => ?_⟩
  · rw [encode, decode, decodeCode_encodeCode]
  · cases i <;> rfl

theorem decodeCode_of_decode {c : Byte} {i : Instr} (h : decode [c] = .ok i []) : decodeCode c = some i := by
  cases hc : decodeCode c with
  | none => simp [decode, hc] at h
  | some j => simpa [decode, hc] using h

/-! ### Refusals -/

/-- Settles O57: each refusal by the first test its line fails. -/
theorem unassignedCodesAreRefused : Obligations.UnassignedCodesAreRefused := by
  unfold Obligations.UnassignedCodesAreRefused
  refine fun s code args input => ⟨fun hnone => ⟨?_, ?_⟩, fun i hcode hev => ?_,
    fun i hcode hev => ⟨?_, fun hbusy => ?_⟩, fun hp => ?_⟩
  · simp [runLine, takeTurn, runCommand, hnone, endStep]
  · simp [runLine, takeTurn, runEvent, hnone, endStep]
  · simp [runLine, takeTurn, runCommand, hcode, hev, endStep]
  · simp [runLine, takeTurn, runEvent, hcode, hev, endStep]
  · have hb : s.hostBusy = true := by simpa [State.hostBusy] using hbusy
    simp [runLine, takeTurn, runCommand, hcode, hev, hb, endStep]
  · simp [runLine, takeTurn, readStep_idle hp, endStep]

/-! ### Steps -/

/-- The script's head is the next line, and it is taken (R65, R96). -/
theorem step_of_script {s : State} {line : ScriptLine} {rest : List ScriptLine} (h : s.script = line :: rest) :
    step s = runLine line { s with script := rest } := by
  rw [step, takeLine, nextLine, h]

/-- Settles O58: `step_of_script`, then the line runs its operation. -/
theorem stepRunsTheDecodedOperation : Obligations.StepRunsTheDecodedOperation := by
  unfold Obligations.StepRunsTheDecodedOperation
  refine fun s rest => ⟨fun code args i p hs hcode hev hb hload => ?_, fun code input i p hs hcode hev hload => ?_,
    step_of_script, fun hs => ?_⟩
  · obtain rfl := encodeCode_of_decodeCode (decodeCode_of_decode hcode)
    exact (step_of_script hs).trans (runLine_command hev hb hload)
  · obtain rfl := encodeCode_of_decodeCode (decodeCode_of_decode hcode)
    exact (step_of_script hs).trans (runLine_event hev hload)
  · rw [step, takeLine, nextLine, hs]

/-- The table word of an operation is its code byte. -/
theorem tableCode_encodeCode (i : Instr) : tableCode 8 (encodeCode i).toNat = encodeCode i := by
  rw [tableCode, Nat.mod_eq_of_lt (encodeCode i).isLt, BitVec.ofNat_toNat, BitVec.setWidth_eq]

theorem readyForEvent_cfg (i : Instr) (s : State) : (readyForEvent i s).cfg = s.cfg := by
  cases i
  case sinkWrite => cases h : s.serPhase <;> simp [readyForEvent, h, State.startSerialize]
  all_goals rfl

theorem withFetchWord_command {i : Instr} (he : i.isEvent = false) (s : State) :
    s.withFetchWord 8 (encodeCode i).toNat =
      { s.endRead.endSerialize with
        script := .command (encodeCode i) (placedArgs s.cfg.toParams i.shape) :: s.script } := by
  simp [State.withFetchWord, tableCode_encodeCode, placeCode, he]

theorem withFetchWord_event {i : Instr} (he : i.isEvent = true) (s : State) :
    s.withFetchWord 8 (encodeCode i).toNat =
      { readyForEvent i s with script := .event (encodeCode i) (placedInput i.shape) :: s.script } := by
  simp [State.withFetchWord, tableCode_encodeCode, placeCode, he]

/-- Settles O59: the placed line is the script's head, HOST is idle for a command, and the operands written out load. -/
theorem placedOperationRunsNext : Obligations.PlacedOperationRunsNext := by
  unfold Obligations.PlacedOperationRunsNext
  refine fun i s => ⟨fun he => ?_, fun he => ?_⟩
  · rw [withFetchWord_command he, step_of_script rfl]
    exact runLine_command he rfl (loadOperands_placed he { s.endRead.endSerialize with script := s.script })
  · rw [withFetchWord_event he, step_of_script rfl, ← readyForEvent_cfg i s]
    exact runLine_event he (loadInput_placed he { readyForEvent i s with script := s.script })

/-! ### Ports between steps -/

theorem afterPayload_closePorts_res (s : State) (r : Results) (w : Nat) :
    (({ s with res := r } : State).afterPayload w).closePorts = (s.afterPayload w).closePorts := by
  by_cases h : w ≠ s.cfg.packedSize ∧ s.cfg.digestAfterShort = .never
  · rw [State.afterPayload_stops (s := { s with res := r }) h.1 h.2, State.afterPayload_stops h.1 h.2]
    rfl
  · rw [State.afterPayload_goes (s := { s with res := r }) h, State.afterPayload_goes h]

theorem engineStore_closePorts_res (s : State) (r : Results) (b : Byte) :
    (({ s with res := r } : State).engineStore b).closePorts = (s.engineStore b).closePorts := by
  by_cases h : s.widx + 1 = s.cfg.regionSize
  · rw [State.engineStore, if_pos h, State.engineStore, if_pos h]
    rfl
  · rw [State.engineStore, if_neg h, State.engineStore, if_neg h]
    rfl

/-- What stands on the result ports before an operation makes no difference to it (R24). -/
theorem endStep_exec_res (i : Instr) (s : State) (r : Results) :
    endStep (exec i { s with res := r }) = endStep (exec i s) := by
  cases i
  case serialize =>
    show endStep (if s.hostBusy then _ else _) = endStep (if s.hostBusy then _ else _)
    split <;> rfl
  case read =>
    dsimp only [exec, execRead]
    split
    · rfl
    split
    · rfl
    split <;> rfl
  case engByte =>
    show endStep (if s.inRegion s.widx then _ else _) = endStep (if s.inRegion s.widx then _ else _)
    split
    · exact congrArg Host.Outcome.next (engineStore_closePorts_res s r s.ports.lineByte)
    · rfl
  case handler =>
    show endStep (if s.handlerEnabled then .next (if s.te then _ else _) else _) =
      endStep (if s.handlerEnabled then .next (if s.te then _ else _) else _)
    split
    · split <;> rfl
    · rfl
  case sinkWrite =>
    cases hp : s.serPhase with
    | idle => simp [exec, execSinkWrite, hp]
    | writePayload =>
      simp only [exec, execSinkWrite, hp]
      split
      · exact congrArg Host.Outcome.next (afterPayload_closePorts_res (s.appendSink _) r _)
      · rfl
    | writeDigest =>
      simp only [exec, execSinkWrite, hp]
      split <;> rfl
  all_goals rfl

theorem readWait_closePorts (s : State) (p : Ports) (r : Results) :
    (readWait { s with ports := p, res := r }).closePorts = (readWait s).closePorts := by
  dsimp only [readWait]
  split <;> rfl

/-- Nor does what stands on any port before a READ's step. -/
theorem endStep_readStep_ports (s : State) (p : Ports) (r : Results) :
    endStep (readStep { s with ports := p, res := r }) = endStep (readStep s) := by
  obtain ⟨ph, hp⟩ : ∃ ph, s.rdPhase = ph := ⟨_, rfl⟩
  have hp' : ({ s with ports := p, res := r } : State).rdPhase = ph := hp
  cases ph with
  | idle => rw [readStep_idle hp, readStep_idle hp']
  | wait =>
    rw [readStep_wait hp, readStep_wait hp']
    exact congrArg Host.Outcome.next (readWait_closePorts s p r)
  | mask => rw [readStep_mask hp, readStep_mask hp']; rfl
  | copy =>
    obtain ⟨g, hg⟩ : ∃ g, s.cfg.copyGranularity = g := ⟨_, rfl⟩
    cases g with
    | byte =>
      by_cases hk : s.rdK < s.cfg.regionSize
      · rw [readStep_copyByte hp hg hk, readStep_copyByte hp' hg hk]; rfl
      · rw [readStep_copyByte_outside hp hg hk, readStep_copyByte_outside hp' hg hk]
    | frame => rw [readStep_copyFrame hp hg, readStep_copyFrame hp' hg]; rfl
  | resample => rw [readStep_resample hp, readStep_resample hp']; rfl
  | unmask => rw [readStep_unmask hp, readStep_unmask hp']; rfl

/-- A line does the same whatever stands on the ports before it: it loads its own operands (R24). -/
theorem runLine_ports (line : ScriptLine) (s : State) (p : Ports) (r : Results) :
    runLine line { s with ports := p, res := r } = runLine line s := by
  cases line with
  | readStep => exact endStep_readStep_ports s p r
  | command code args =>
    have hload (i : Instr) : loadOperands i args { s with ports := p, res := r } = loadOperands i args s := by
      cases args <;> rfl
    have hbusy : ({ s with ports := p, res := r } : State).hostBusy = s.hostBusy := rfl
    simp only [runLine, takeTurn, runCommand, hload, hbusy]
    split
    · rfl
    split
    · rfl
    split
    · rfl
    split
    next => rfl
    next q _ => exact endStep_exec_res _ { s with ports := q } r
  | event code input =>
    have hload (i : Instr) : loadInput i input { s with ports := p, res := r } = loadInput i input s := by
      cases input <;> rfl
    simp only [runLine, takeTurn, runEvent, hload]
    split
    · rfl
    split
    · split
      next => rfl
      next q _ => exact endStep_exec_res _ { s with ports := q } r
    · rfl

theorem nextLine_ports (s : State) (p : Ports) (r : Results) :
    nextLine { s with ports := p, res := r } =
      ((nextLine s).1, { (nextLine s).2 with ports := p, res := r }) := by
  unfold nextLine
  cases hs : s.script <;> rfl

theorem step_ports_emptied {s t : State} (h : step s = .next t) :
    t.ports = emptyPorts s.cfg.toParams ∧ t.res = {} := by
  have hcfg := (step_transport h).cfg_eq
  obtain ⟨u, _, rfl⟩ := step_next h
  exact ⟨congrArg (fun c : Config => emptyPorts c.toParams) hcfg, rfl⟩

/-- Settles O60: a step empties the ports, `runLine_ports`, and what loads is typed. -/
theorem portsCarryOneOperationOnly : Obligations.PortsCarryOneOperationOnly := by
  unfold Obligations.PortsCarryOneOperationOnly
  refine ⟨fun s t => step_ports_emptied, fun s p r => ?_, fun i s args p => loadOperands_fit, fun i s input p =>
    loadInput_fit⟩
  rw [step, takeLine, nextLine_ports]
  exact runLine_ports _ _ p r

end Sys2Proof.Machine
end
